-- ==== Sys2Proof/Word.lean ====
section
/-! DEFINITION. The word types of the unit and the two readings of a wide register
(spec 00_scope.md R8, R11; 10_state.md R21, R22). -/

namespace Sys2Proof

/-- One 32-bit register word, the unit of every host access (00_scope.md R9, 20_memory.md R53). -/
abbrev Word := BitVec 32

/-- One 8-bit byte: a text character or an identifier byte (00_scope.md R13, 10_state.md R24). -/
abbrev Byte := BitVec 8

/-- The name of a wide register, W0..W3; every value of the 2-bit field is legal
(10_state.md R21, 30_encoding.md R72). -/
abbrev Reg := Fin 4

/-- A 128-bit value stored as two 64-bit limbs: HI holds bits 127..64, LO bits 63..0
(10_state.md R22). -/
structure Wide where
  hi : BitVec 64
  lo : BitVec 64
  deriving DecidableEq, Repr

/-- The unsigned 128-bit integer the two limbs hold, `HI :: LO` (10_state.md R22). -/
def Wide.value (x : Wide) : BitVec 128 := x.hi ++ x.lo

/-- The two limbs of a 128-bit integer (10_state.md R22). -/
def Wide.ofValue (v : BitVec 128) : Wide := ⟨v.extractLsb' 64 64, v.extractLsb' 0 64⟩

end Sys2Proof
end

