-- ==== Sys2Proof/Syntax.lean ====
section
/-! DEFINITION. The eleven commands, one constructor per row of opcode_table.json (30_encoding.md R76). -/

namespace Sys2Proof

/-- A command of the unit with its operands. A register field is named by the register it selects
(30_encoding.md R72); a shift amount is a count, not a bit field the unit adds to or masks
(R73); the OR immediate is a 16-bit field (R74). -/
inductive Instr where
  /-- `make wd, ws1, ws2` (40_wide_integer.md R100) -/
  | make (rd rs1 rs2 : Reg)
  /-- `shl wd, ws, n` (40_wide_integer.md R103) -/
  | shl (rd rs1 : Reg) (n : Nat)
  /-- `shr wd, ws, n` (40_wide_integer.md R108) -/
  | shr (rd rs1 : Reg) (n : Nat)
  /-- `ori wd, ws, k` (40_wide_integer.md R111) -/
  | ori (rd rs1 : Reg) (k : BitVec 16)
  /-- `orx wd, ws1, ws2` (40_wide_integer.md R113) -/
  | orx (rd rs1 rs2 : Reg)
  /-- `hi wd, ws` (40_wide_integer.md R116) -/
  | hi (rd rs1 : Reg)
  /-- `lo wd, ws` (40_wide_integer.md R118) -/
  | lo (rd rs1 : Reg)
  /-- `enc ws` (41_base32_codec.md R133) -/
  | enc (rs1 : Reg)
  /-- `dec wd` (41_base32_codec.md R143) -/
  | dec (rd : Reg)
  /-- `cmp ws1, ws2` (42_compare_hash.md R171) -/
  | cmp (rs1 rs2 : Reg)
  /-- `hash ws` (42_compare_hash.md R176) -/
  | hash (rs1 : Reg)
  deriving DecidableEq, Repr

/-- The eleven assigned opcodes (30_encoding.md R76). -/
inductive Opcode where
  | make | shl | shr | ori | orx | hi | lo | enc | dec | cmp | hash
  deriving DecidableEq, Repr

/-- The opcode of a command (30_encoding.md R76). -/
def Instr.opcode : Instr → Opcode
  | .make .. => .make
  | .shl .. => .shl
  | .shr .. => .shr
  | .ori .. => .ori
  | .orx .. => .orx
  | .hi .. => .hi
  | .lo .. => .lo
  | .enc .. => .enc
  | .dec .. => .dec
  | .cmp .. => .cmp
  | .hash .. => .hash

end Sys2Proof
end

