-- ==== Sys2Proof/WellFormed.lean ====
section
/-! DEFINITION. Which commands have an encoding: every register and every 16-bit immediate has one
(30_encoding.md R72, R74); a shift amount has one only in 0..255 (R73, R81). -/

namespace Sys2Proof

/-- The range of an encodable shift amount (30_encoding.md R73). -/
def shiftAmountOk (n : Nat) : Bool := n ≤ 255

/-- The command has an encoding (30_encoding.md R72 to R75, R81). -/
def Instr.wellFormed : Instr → Bool
  | .make _ _ _ => true
  | .shl _ _ n => shiftAmountOk n
  | .shr _ _ n => shiftAmountOk n
  | .ori _ _ _ => true
  | .orx _ _ _ => true
  | .hi _ _ => true
  | .lo _ _ => true
  | .enc _ => true
  | .dec _ => true
  | .cmp _ _ => true
  | .hash _ => true

end Sys2Proof
end

