-- ==== Sys2Proof/Decode.lean ====
section
/-! DEFINITION. The decoder of a command word, total and rejecting by name (30_encoding.md R70 to R78),
and after it the encoder, from the same tables. -/

namespace Sys2Proof

/-- Why a command word is no command (30_encoding.md R77). -/
inductive DecodeError where
  /-- OP is none of the eleven assigned opcodes: IllegalCommand with detail 1. -/
  | reservedOpcode
  /-- A field that must be 0 is not: IllegalCommand with detail 2. -/
  | nonzeroField
  deriving DecidableEq, Repr

/-! ### The fields of a command word (30_encoding.md R71) -/

/-- OP, bits [31:26]. -/
def opField (c : Word) : BitVec 6 := c.extractLsb' 26 6

/-- RD, bits [25:24]. -/
def rdField (c : Word) : Reg := (c.extractLsb' 24 2).toFin

/-- RS1, bits [23:22]. -/
def rs1Field (c : Word) : Reg := (c.extractLsb' 22 2).toFin

/-- RS2, bits [21:20]. -/
def rs2Field (c : Word) : Reg := (c.extractLsb' 20 2).toFin

/-- IMM, bits [15:0]. -/
def immField (c : Word) : BitVec 16 := c.extractLsb' 0 16

/-- The shift amount `zext(IMM[7:0])` (30_encoding.md R73). -/
def shiftField (c : Word) : Nat := (c.extractLsb' 0 8).toNat

/-! ### The opcode map (30_encoding.md R76) -/

/-- The 6-bit number of an opcode. -/
def Opcode.bits : Opcode → BitVec 6
  | .make => 0x01
  | .shl => 0x02
  | .shr => 0x03
  | .ori => 0x04
  | .orx => 0x05
  | .hi => 0x06
  | .lo => 0x07
  | .enc => 0x10
  | .dec => 0x11
  | .cmp => 0x18
  | .hash => 0x19

/-- The opcodes in the table's order. -/
def allOpcodes : List Opcode := [.make, .shl, .shr, .ori, .orx, .hi, .lo, .enc, .dec, .cmp, .hash]

/-- The assigned opcode with a given number, if there is one. -/
def opcodeOfBits (b : BitVec 6) : Option Opcode := allOpcodes.find? (fun op => op.bits == b)

/-- The match column of R76. -/
def Opcode.matchWord : Opcode → Word
  | .make => 0x04000000
  | .shl => 0x08000000
  | .shr => 0x0C000000
  | .ori => 0x10000000
  | .orx => 0x14000000
  | .hi => 0x18000000
  | .lo => 0x1C000000
  | .enc => 0x40000000
  | .dec => 0x44000000
  | .cmp => 0x60000000
  | .hash => 0x64000000

/-- The mask column of R76. -/
def Opcode.mask : Opcode → Word
  | .make => 0xFC0FFFFF
  | .shl => 0xFC3FFF00
  | .shr => 0xFC3FFF00
  | .ori => 0xFC3F0000
  | .orx => 0xFC0FFFFF
  | .hi => 0xFC3FFFFF
  | .lo => 0xFC3FFFFF
  | .enc => 0xFF3FFFFF
  | .dec => 0xFCFFFFFF
  | .cmp => 0xFF0FFFFF
  | .hash => 0xFF3FFFFF

/-- The command an opcode makes of the word's fields: the "fields used" column of R76. -/
def Opcode.command (op : Opcode) (c : Word) : Instr :=
  match op with
  | .make => .make (rdField c) (rs1Field c) (rs2Field c)
  | .shl => .shl (rdField c) (rs1Field c) (shiftField c)
  | .shr => .shr (rdField c) (rs1Field c) (shiftField c)
  | .ori => .ori (rdField c) (rs1Field c) (immField c)
  | .orx => .orx (rdField c) (rs1Field c) (rs2Field c)
  | .hi => .hi (rdField c) (rs1Field c)
  | .lo => .lo (rdField c) (rs1Field c)
  | .enc => .enc (rs1Field c)
  | .dec => .dec (rdField c)
  | .cmp => .cmp (rs1Field c) (rs2Field c)
  | .hash => .hash (rs1Field c)

/-- Decode a command word: the opcode first, the must-be-zero fields second (30_encoding.md R77). -/
def decode (c : Word) : Except DecodeError Instr :=
  match opcodeOfBits (opField c) with
  | none => .error .reservedOpcode
  | some op =>
    if c &&& op.mask = op.matchWord then .ok (op.command c) else .error .nonzeroField

/-- The word numbered as opcode_table.json numbers it: a command is one 32-bit word moved whole
(20_memory.md R53), so bit 0 of the table is bit 0 of the word. -/
def decodeTableWord (nbits w : Nat) : Option Instr :=
  match decode (BitVec.ofNat 32 (w % 2 ^ nbits)) with
  | .ok i => some i
  | .error _ => none

/-! ### The encoder -/

/-- A register's 2-bit field (30_encoding.md R72). -/
def regBits (r : Reg) : BitVec 2 := BitVec.ofFin r

/-- The word with the given fields, Z = 0 (30_encoding.md R71). -/
def commandWord (op : Opcode) (rd rs1 rs2 : Reg) (imm : BitVec 16) : Word :=
  op.bits ++ regBits rd ++ regBits rs1 ++ regBits rs2 ++ (0 : BitVec 4) ++ imm

/-- Encode a command; fields it does not use are 0 (30_encoding.md R72, R75, R76). -/
def encode : Instr → Word
  | .make rd rs1 rs2 => commandWord .make rd rs1 rs2 0
  | .shl rd rs1 n => commandWord .shl rd rs1 0 (BitVec.ofNat 16 n)
  | .shr rd rs1 n => commandWord .shr rd rs1 0 (BitVec.ofNat 16 n)
  | .ori rd rs1 k => commandWord .ori rd rs1 0 k
  | .orx rd rs1 rs2 => commandWord .orx rd rs1 rs2 0
  | .hi rd rs1 => commandWord .hi rd rs1 0 0
  | .lo rd rs1 => commandWord .lo rd rs1 0 0
  | .enc rs1 => commandWord .enc 0 rs1 0 0
  | .dec rd => commandWord .dec rd 0 0 0
  | .cmp rs1 rs2 => commandWord .cmp 0 rs1 rs2 0
  | .hash rs1 => commandWord .hash 0 rs1 0 0

end Sys2Proof
end

