-- ==== Sys2Proof/Config.lean ====
section
/-! DEFINITION. The three parameters the spec leaves open (00_scope.md R10; 93_implementation_defined.md
U4, U5, U6) and the free values of unwritten state (U1). None has a body, so a theorem about the model
holds for every choice of them. -/

namespace Sys2Proof

/-- BASE, where the 256-byte register window lies in the host's address space (00_scope.md R10,
20_memory.md R50, R63; log 6). -/
opaque Config.base : Nat

/-- HASH_INIT, the initial value of the hash recurrence (00_scope.md R10, 42_compare_hash.md R175;
log 5). -/
opaque Config.hashInit : Word

/-- LAT, the finite latency of a command word (00_scope.md R10, 70_reset_and_hazards.md R240; log 4). -/
opaque Config.lat : Word → Nat

/-- What a host read, the n-th use of unwritten state, finds in an unmarked word k of a wide register,
or in an unmarked R (k = 0): the unspecified value of 70_reset_and_hazards.md R231, which the model does not
pick (10_state.md R34; log 18). -/
opaque Config.unwrittenWord : Nat → Fin 4 → Word

/-- What a host read, the n-th use of unwritten state, finds in an unmarked byte k of T (10_state.md R34;
70_reset_and_hazards.md R231; log 18). -/
opaque Config.unwrittenByte : Nat → Fin 32 → Byte

end Sys2Proof
end

