-- ==== Sys2Proof/Machine/State.lean ====
section
/-! DEFINITION. Everything the spec gives the machine, as plain data, and its value at reset
(10_state.md R20 to R35; 70_reset_and_hazards.md R230). -/

namespace Sys2Proof.Machine

/-- The fields of STATUS that hold the outcome of the last completed command (10_state.md R31).
BUSY is the presence of a pending command (R33; log 9); the reserved bits read as 0. -/
structure Status where
  err : BitVec 4
  detail : BitVec 4
  index : BitVec 5
  deriving DecidableEq, Repr

/-- A pending command: the word written to CMD (10_state.md R33), and how many steps of its latency
are left (70_reset_and_hazards.md R240; log 4). -/
structure Pending where
  command : Word
  latLeft : Nat
  deriving DecidableEq, Repr

/-- One action of the host, the second agent (00_scope.md R17; 30_encoding.md R83; log 3). -/
inductive HostOp where
  /-- MemWrite(addr, nbytes, v) (20_memory.md R58); only nbytes = 4 is supported (R54). -/
  | write (addr nbytes : Nat) (v : Word)
  /-- MemRead(addr, nbytes) (20_memory.md R59); only nbytes = 4 is supported (R54). -/
  | read (addr nbytes : Nat)
  /-- Read STATUS again and again until BUSY reads 0 (30_encoding.md R83, 70_reset_and_hazards.md R243). -/
  | wait
  /-- The host makes no access during this step. -/
  | idle
  /-- A reset of the unit, or its power removed and restored (70_reset_and_hazards.md R230, R232;
  60_exceptions.md R220). -/
  | reset
  deriving DecidableEq, Repr

/-- The state of the unit, and the model's own fields (the last three). -/
structure State where
  /-- W[0..3] (10_state.md R21, R22). -/
  w : Vector Wide 4
  /-- The written mark of each 32-bit word of each wide register (10_state.md R34). -/
  wWritten : Vector (Vector Bool 4) 4
  /-- T[0..31] (10_state.md R24). -/
  t : Vector Byte 32
  /-- The written mark of each byte of T (10_state.md R34). -/
  tWritten : Vector Bool 32
  /-- TLEN (10_state.md R25). -/
  tlen : BitVec 8
  /-- R (10_state.md R26). -/
  r : Word
  /-- The written mark of R (10_state.md R34). -/
  rWritten : Bool
  /-- CONFIG.STRICT (10_state.md R30). -/
  strict : BitVec 1
  /-- STATUS.ERR, DETAIL and INDEX (10_state.md R31). -/
  status : Status
  /-- The pending command; it is there exactly while STATUS.BUSY = 1 (10_state.md R33). -/
  pending : Option Pending
  /-- The record of the fault UnwrittenRead: some read used state whose written mark was clear
  (60_exceptions.md R210; never cleared and never final: 93_implementation_defined.md section 1;
  log 2). -/
  unwrittenRead : Bool
  /-- The model's own: how many uses of unwritten state there have been. It numbers the free values
  that host reads of it find, and nothing else reads it (log 18). -/
  freeUses : Nat
  /-- The model's own: the host's coming actions, in program order (log 3). -/
  host : List HostOp
  /-- The model's own: the words the host's reads returned, newest first (log 3). -/
  reads : List Word
  deriving DecidableEq, Repr

/-- Why the machine stops (60_exceptions.md R210). -/
inductive Fault where
  /-- A host access that is not an aligned 32-bit access inside the window. Raised by the host's turn
  (Machine/HostPort.lean). Safe: the model has fewer runs than the hardware. -/
  | hostAccessFault
  /-- A host access other than a STATUS read while BUSY = 1. Raised by the host's turn
  (Machine/HostPort.lean). Safe: the model has fewer runs than the hardware. -/
  | hostHazard
  deriving DecidableEq, Repr

/-- Why the model gives no meaning. -/
inductive Refusal where
  /-- A command that the model has not given its meaning yet. Raised by no arm of the dispatch: all
  eleven commands have one. Safe. -/
  | notModelled (mnemonic : String)
  deriving DecidableEq, Repr

/-- No error: ERR = DETAIL = INDEX = 0 (10_state.md R31, 60_exceptions.md R205). -/
def Status.ok : Status := ⟨0, 0, 0⟩

/-- The state after reset (70_reset_and_hazards.md R230). The spec leaves W, T and R unspecified:
the zeros there are the model's choice (DESIGN CHOICE, unsafe: log 1), and every written mark is
clear, so no read finds them. Nothing is pending and the host has no actions (log 10). -/
def State.reset : State where
  w := Vector.replicate 4 ⟨0, 0⟩
  wWritten := Vector.replicate 4 (Vector.replicate 4 false)
  t := Vector.replicate 32 0
  tWritten := Vector.replicate 32 false
  tlen := 0
  r := 0
  rWritten := false
  strict := 0
  status := Status.ok
  pending := none
  unwrittenRead := false
  freeUses := 0
  host := []
  reads := []

end Sys2Proof.Machine
end

