-- ==== Sys2Proof/Machine/Flags.lean ====
section
/-! DEFINITION. The unit has no condition flags (10_state.md R29). What stands in their place: the error
codes and the STATUS word (10_state.md R31, 60_exceptions.md R203), and the code of a comparison
result (42_compare_hash.md R171). -/

namespace Sys2Proof.Machine

/-- The error kinds of 60_exceptions.md R203. The two generator errors are reserved: no command
raises them (R201). -/
inductive ErrorKind where
  | invalidFormat
  | timestampOutOfRange
  | entropySourceUnavailable
  | illegalCommand
  deriving DecidableEq, Repr

/-- STATUS.ERR of an error kind (60_exceptions.md R203). -/
def ErrorKind.code : ErrorKind → BitVec 4
  | .invalidFormat => 1
  | .timestampOutOfRange => 2
  | .entropySourceUnavailable => 3
  | .illegalCommand => 4

/-! The DETAIL values of 60_exceptions.md R203. -/

/-- InvalidFormat, LENGTH. -/
def detailLength : BitVec 4 := 1

/-- InvalidFormat, CHAR. -/
def detailChar : BitVec 4 := 2

/-- InvalidFormat, PAD. -/
def detailPad : BitVec 4 := 3

/-- DETAIL of an IllegalCommand: 1 OPCODE, 2 FIELD. -/
def illegalDetail : DecodeError → BitVec 4
  | .reservedOpcode => 1
  | .nonzeroField => 2

/-- One bit of a truth value. -/
def bitOf (b : Bool) : BitVec 1 := BitVec.ofBool b

/-- The word a read of STATUS returns (10_state.md R31): reserved, INDEX, reserved, DETAIL, ERR,
reserved, BUSY, from bit 31 down. -/
def Status.word (st : Status) (busy : Bool) : Word :=
  (0 : BitVec 11) ++ st.index ++ (0 : BitVec 4) ++ st.detail ++ st.err ++ (0 : BitVec 3) ++ bitOf busy

/-- R's encoding of a comparison: -1, 0 or 1 in 32-bit two's complement (42_compare_hash.md R171). -/
def comparisonCode : Ordering → Word
  | .lt => 0xFFFFFFFF
  | .eq => 0x00000000
  | .gt => 0x00000001

end Sys2Proof.Machine
end

