-- ==== Sys2Proof/Machine/Ops.lean ====
section
/-! DEFINITION. The named operations every command is made of: reads and writes of W, T, TLEN and R with
their written marks (10_state.md R34), what a host read of unmarked state finds, the end of a command
with a result, with an error and with neither (60_exceptions.md R204, R205; 70_reset_and_hazards.md
R231), the issue of a command (R240) and the reset of the unit (R230, R232). -/

namespace Sys2Proof.Machine

/-! ### Wide registers -/

/-- `W[r]` (00_scope.md R12). -/
def State.wide (s : State) (r : Reg) : Wide := s.w[r]

/-- Word k of a wide register, bits [32k+31 : 32k] (20_memory.md R56). -/
def wideWord (x : Wide) (k : Fin 4) : Word :=
  match k with
  | 0 => x.lo.extractLsb' 0 32
  | 1 => x.lo.extractLsb' 32 32
  | 2 => x.hi.extractLsb' 0 32
  | 3 => x.hi.extractLsb' 32 32

/-- What a host read of word k of `W[r]` finds: its content where it is marked, else a free value
(10_state.md R34; 70_reset_and_hazards.md R231; log 18). -/
def State.readWideWord (s : State) (r : Reg) (k : Fin 4) : Word :=
  if s.wWritten[r][k] then wideWord (s.wide r) k else Config.unwrittenWord s.freeUses k

/-- All four words of `W[r]` carry the written mark (10_state.md R34; 70_reset_and_hazards.md R234). -/
def State.wideWritten (s : State) (r : Reg) : Bool :=
  s.wWritten[r][0] && s.wWritten[r][1] && s.wWritten[r][2] && s.wWritten[r][3]

/-- `W[r] <- x`, marking its four words written (00_scope.md R12; 10_state.md R34). -/
def State.writeWide (s : State) (r : Reg) (x : Wide) : State :=
  { s with w := s.w.set r x, wWritten := s.wWritten.set r (Vector.replicate 4 true) }

/-- The content of `W[r]` is unspecified from now on: its marks are cleared
(70_reset_and_hazards.md R231; log 2). -/
def State.loseWide (s : State) (r : Reg) : State :=
  { s with wWritten := s.wWritten.set r (Vector.replicate 4 false) }

/-! ### Text buffer -/

/-- `T[0..len-1]`, at most the 32 bytes there are (10_state.md R24). -/
def State.text (s : State) (len : Nat) : List Byte := s.t.toList.take len

/-- What a host read of `T[k]` finds: its content where it is marked, else a free value (10_state.md R34;
70_reset_and_hazards.md R231; log 18). -/
def State.readByte (s : State) (k : Fin 32) : Byte :=
  if s.tWritten[k] then s.t[k] else Config.unwrittenByte s.freeUses k

/-- What a host read of T finds, byte by byte (10_state.md R34). -/
def State.readT (s : State) : Vector Byte 32 := Vector.ofFn s.readByte

/-- Every byte of `T[0..len-1]` carries the written mark (10_state.md R34). -/
def State.textWritten (s : State) (len : Nat) : Bool := (s.tWritten.toList.take len).all id

/-- The old list with the new one written over its beginning. -/
def overlay {α : Type} : List α → List α → List α
  | _, [] => []
  | [], y :: ys => y :: ys
  | x :: xs, _ :: ys => x :: overlay xs ys

theorem overlay_length {α : Type} (xs ys : List α) : (overlay xs ys).length = ys.length := by
  induction ys generalizing xs with
  | nil => cases xs <;> rfl
  | cons y ys ih =>
    cases xs with
    | nil => rfl
    | cons x xs => simp [overlay, ih]

/-- A vector with a list written over its beginning. -/
def overlayVector {α : Type} {n : Nat} (xs : List α) (v : Vector α n) : Vector α n :=
  ⟨(overlay xs v.toList).toArray, by simp [overlay_length]⟩

/-- Write a text from T[0] on, marking its bytes written, and its length to TLEN; the bytes of T beyond
it and their marks stay (41_base32_codec.md R133; 10_state.md R24, R25, R34). -/
def State.writeText (s : State) (cs : List Byte) : State :=
  { s with
    t := overlayVector cs s.t
    tWritten := overlayVector (cs.map fun _ => true) s.tWritten
    tlen := BitVec.ofNat 8 cs.length }

/-- The content of `T[0..len-1]` is unspecified from now on: its marks are cleared
(70_reset_and_hazards.md R231; log 2). -/
def State.loseText (s : State) (len : Nat) : State :=
  { s with tWritten := overlayVector (List.replicate len false) s.tWritten }

/-! ### Result register -/

/-- What a host read of R finds: its content where it is marked, else a free value (10_state.md R34;
70_reset_and_hazards.md R231; log 18). -/
def State.readResult (s : State) : Word :=
  if s.rWritten then s.r else Config.unwrittenWord s.freeUses 0

/-- `R <- v`, marking R written (10_state.md R26, R34). -/
def State.writeResult (s : State) (v : Word) : State := { s with r := v, rWritten := true }

/-- The content of R is unspecified from now on: its mark is cleared (70_reset_and_hazards.md R231;
log 2). -/
def State.loseResult (s : State) : State := { s with rWritten := false }

/-! ### The record of UnwrittenRead -/

/-- State is used whose written mark is `written`: if the mark is clear, the fault is recorded for good
and the free value of this use is spent (10_state.md R34; 60_exceptions.md R210;
93_implementation_defined.md U1; log 2, log 18). -/
def State.noteUse (s : State) (written : Bool) : State :=
  { s with
    unwrittenRead := s.unwrittenRead || !written
    freeUses := s.freeUses + (!written).toNat }

/-! ### The end of a command -/

/-- The command completes with this outcome: STATUS takes it, nothing is pending, BUSY returns to 0
(70_reset_and_hazards.md R240; 60_exceptions.md R205, R207). -/
def State.complete (s : State) (st : Status) : State := { s with status := st, pending := none }

/-- The command completes without error (60_exceptions.md R205). -/
def State.succeed (s : State) : State := s.complete Status.ok

/-- `raise E(detail, index)`: STATUS takes the error and nothing else is written; the unit has no trap
(60_exceptions.md R200, R204, R212, R213). -/
def State.raise (s : State) (e : ErrorKind) (detail : BitVec 4) (index : BitVec 5) : State :=
  s.complete ⟨e.code, detail, index⟩

/-- A command word that decodes to no command: IllegalCommand (30_encoding.md R77). -/
def State.rejectCommand (s : State) (e : DecodeError) : State :=
  s.raise .illegalCommand (illegalDetail e) 0

/-- The command read an unwritten operand: UnwrittenRead is recorded and the command ends without a
result. W, T, TLEN, R and STATUS are not written; nothing is pending, BUSY returns to 0
(70_reset_and_hazards.md R231, R240; 20_memory.md R61 lists a command's results; log 2). -/
def State.abandon (s : State) : State := { s.noteUse false with pending := none }

/-- How every command ends: as `finished` where all it reads is written; else without a result, from
the state `lost` in which the content of its destination is unspecified (10_state.md R34;
70_reset_and_hazards.md R231). -/
def endCommand (written : Bool) (finished lost : State) : Host.Outcome State Fault Refusal :=
  .next (if written then finished else lost.abandon)

/-! ### Issue, latency, reset -/

/-- STATUS.BUSY (10_state.md R31, R33). -/
def State.busy (s : State) : Bool := s.pending.isSome

/-- The word a read of STATUS returns now (10_state.md R31; 70_reset_and_hazards.md R242). -/
def State.statusWord (s : State) : Word := s.status.word s.busy

/-- A CMD write: BUSY <- 1, pending <- c, to complete after LAT(c) (70_reset_and_hazards.md R240). -/
def State.issue (s : State) (c : Word) : State := { s with pending := some ⟨c, Config.lat c⟩ }

/-- One step of a pending command's latency passes (70_reset_and_hazards.md R240; log 4). -/
def State.tick (s : State) : State :=
  { s with pending := s.pending.map fun p => { p with latLeft := p.latLeft - 1 } }

/-- Reset of the unit: every piece of its state as after reset, the pending command discarded
(70_reset_and_hazards.md R230, R232; 60_exceptions.md R220). The host's list, what it has read and the
record of UnwrittenRead are no state a reset reaches (log 11). -/
def State.resetUnit (s : State) : State :=
  { State.reset with
    unwrittenRead := s.unwrittenRead, freeUses := s.freeUses, host := s.host, reads := s.reads }

end Sys2Proof.Machine
end

