-- ==== Sys2Proof/Machine/Operands.lean ====
section
/-! DEFINITION. The operand forms of the commands: one or two wide registers (30_encoding.md R72), the shift
amount (R73), the two small values of OR (R74), and the text T[0..TLEN-1] (10_state.md R24); and for
each, whether all that a command reads in it is written (10_state.md R34). -/

namespace Sys2Proof.Machine

/-- Every word of the two source registers carries the written mark (70_reset_and_hazards.md R234). -/
def State.widesWritten (s : State) (rs1 rs2 : Reg) : Bool := s.wideWritten rs1 && s.wideWritten rs2

/-- ORI's small value, `zext_128(IMM[15:0])` (30_encoding.md R74), as limbs. -/
def smallImmediate (k : BitVec 16) : Wide := ⟨0, k.setWidth 64⟩

/-- ORX's small value, `zext_128(W[RS2].LO)` (30_encoding.md R74), as limbs. -/
def smallRegister (x : Wide) : Wide := ⟨0, x.lo⟩

end Sys2Proof.Machine
end

