-- ==== Sys2Proof/Machine/WideInteger.lean ====
section
/-! DEFINITION. The wide-integer commands MAKE, SHL, SHR, ORI, ORX, HI and LO (40_wide_integer.md). -/

namespace Sys2Proof.Machine

/-! ### The operations on two limbs -/

/-- Left shift with the carry from LO into HI, as the hardware builds it (40_wide_integer.md R105). -/
def wideShl (x : Wide) (n : Nat) : Wide :=
  if n = 0 then x
  else if n < 64 then ⟨(x.hi <<< n) ||| (x.lo >>> (64 - n)), x.lo <<< n⟩
  else if n < 128 then ⟨x.lo <<< (n - 64), 0⟩
  else ⟨0, 0⟩

/-- Logical right shift with the carry from HI into LO (40_wide_integer.md R109). -/
def wideShr (x : Wide) (n : Nat) : Wide :=
  if n = 0 then x
  else if n < 64 then ⟨x.hi >>> n, (x.lo >>> n) ||| (x.hi <<< (64 - n))⟩
  else if n < 128 then ⟨0, x.hi >>> (n - 64)⟩
  else ⟨0, 0⟩

/-- Bitwise OR of two wide values, limb by limb (40_wide_integer.md R111, R113). -/
def wideOr (x y : Wide) : Wide := ⟨x.hi ||| y.hi, x.lo ||| y.lo⟩

/-- `h :: l` (40_wide_integer.md R100). -/
def wideMake (h l : BitVec 64) : Wide := ⟨h, l⟩

/-- A 64-bit half, zero-extended (40_wide_integer.md R116, R118). -/
def wideHalf (l : BitVec 64) : Wide := ⟨0, l⟩

/-- A command writes `W[rd] <- x` and completes without error (60_exceptions.md R205, R206). -/
def State.finishWide (s : State) (rd : Reg) (x : Wide) : State := (s.writeWide rd x).succeed

/-! ### The commands -/

/-- A command of one source register that writes `W[rd] <- x` (40_wide_integer.md; log 2). -/
def wideCommand (rd rs1 : Reg) (x : Wide) (s : State) : Host.Outcome State Fault Refusal :=
  endCommand (s.wideWritten rs1) (s.finishWide rd x) (s.loseWide rd)

/-- A command of two source registers that writes `W[rd] <- x` (40_wide_integer.md; log 2). -/
def wideCommand2 (rd rs1 rs2 : Reg) (x : Wide) (s : State) : Host.Outcome State Fault Refusal :=
  endCommand (s.widesWritten rs1 rs2) (s.finishWide rd x) (s.loseWide rd)

/-- `make wd, ws1, ws2` (40_wide_integer.md R100, R101). -/
def execMake (rd rs1 rs2 : Reg) (s : State) : Host.Outcome State Fault Refusal :=
  wideCommand2 rd rs1 rs2 (wideMake (s.wide rs1).lo (s.wide rs2).lo) s

/-- `shl wd, ws, n` (40_wide_integer.md R103 to R106). -/
def execShl (rd rs1 : Reg) (n : Nat) (s : State) : Host.Outcome State Fault Refusal :=
  wideCommand rd rs1 (wideShl (s.wide rs1) n) s

/-- `shr wd, ws, n` (40_wide_integer.md R108 to R110). -/
def execShr (rd rs1 : Reg) (n : Nat) (s : State) : Host.Outcome State Fault Refusal :=
  wideCommand rd rs1 (wideShr (s.wide rs1) n) s

/-- `ori wd, ws, k` (40_wide_integer.md R111, R112). -/
def execOri (rd rs1 : Reg) (k : BitVec 16) (s : State) : Host.Outcome State Fault Refusal :=
  wideCommand rd rs1 (wideOr (s.wide rs1) (smallImmediate k)) s

/-- `orx wd, ws1, ws2` (40_wide_integer.md R113, R114). -/
def execOrx (rd rs1 rs2 : Reg) (s : State) : Host.Outcome State Fault Refusal :=
  wideCommand2 rd rs1 rs2 (wideOr (s.wide rs1) (smallRegister (s.wide rs2))) s

/-- `hi wd, ws` (40_wide_integer.md R116, R117). -/
def execHi (rd rs1 : Reg) (s : State) : Host.Outcome State Fault Refusal :=
  wideCommand rd rs1 (wideHalf (s.wide rs1).hi) s

/-- `lo wd, ws` (40_wide_integer.md R118, R119). -/
def execLo (rd rs1 : Reg) (s : State) : Host.Outcome State Fault Refusal :=
  wideCommand rd rs1 (wideHalf (s.wide rs1).lo) s

end Sys2Proof.Machine
end

