-- ==== Sys2Proof/Machine/Codec.lean ====
section
/-! DEFINITION. The Crockford Base32 codec: its two tables, encode and decode as functions, and the commands
ENC and DEC (41_base32_codec.md). -/

namespace Sys2Proof.Machine

/-! ### Encode -/

/-- ENC_TABLE: the 8-bit code of each of the 32 symbols (41_base32_codec.md R130, R131). -/
def encCodes : Vector Byte 32 :=
  #v[0x30, 0x31, 0x32, 0x33, 0x34, 0x35, 0x36, 0x37,
     0x38, 0x39, 0x41, 0x42, 0x43, 0x44, 0x45, 0x46,
     0x47, 0x48, 0x4A, 0x4B, 0x4D, 0x4E, 0x50, 0x51,
     0x52, 0x53, 0x54, 0x56, 0x57, 0x58, 0x59, 0x5A]

/-- `ENC_TABLE[g]` (41_base32_codec.md R131). -/
def encTable (g : BitVec 5) : Byte := encCodes[g.toFin]

/-- The 130-bit intermediate `Q = V << 2` (41_base32_codec.md R132). -/
def intermediate (v : BitVec 128) : BitVec 130 := v.setWidth 130 <<< 2

/-- Group i of the 26, `Q[129-5i : 125-5i]`, most significant first (41_base32_codec.md R132). -/
def encGroup (v : BitVec 128) (i : Nat) : BitVec 5 := (intermediate v).extractLsb' (125 - 5 * i) 5

/-- The 26 characters of a value (41_base32_codec.md R132). -/
def encodeText (v : BitVec 128) : List Byte :=
  (List.range 26).map fun i => encTable (encGroup v i)

/-- A command writes a text to T and its length to TLEN, and completes without error
(60_exceptions.md R205, R206). -/
def State.finishText (s : State) (cs : List Byte) : State := (s.writeText cs).succeed

/-- `enc ws`: the 26 characters to T[0..25], and 26 to TLEN (41_base32_codec.md R133 to R135). -/
def execEnc (rs1 : Reg) (s : State) : Host.Outcome State Fault Refusal :=
  endCommand (s.wideWritten rs1) (s.finishText (encodeText (s.wide rs1).value)) (s.loseText 26)

/-! ### Decode -/

/-- The digits' rows of DEC_TABLE: code and value (41_base32_codec.md R140). -/
def decDigits : List (Byte × BitVec 5) :=
  [(0x30, 0), (0x31, 1), (0x32, 2), (0x33, 3), (0x34, 4),
   (0x35, 5), (0x36, 6), (0x37, 7), (0x38, 8), (0x39, 9)]

/-- The letters' rows of DEC_TABLE: uppercase code, lowercase code, value. O is 0, I and L are 1;
U has no row (41_base32_codec.md R140). -/
def decLetters : List (Byte × Byte × BitVec 5) :=
  [(0x41, 0x61, 10), (0x42, 0x62, 11), (0x43, 0x63, 12), (0x44, 0x64, 13), (0x45, 0x65, 14),
   (0x46, 0x66, 15), (0x47, 0x67, 16), (0x48, 0x68, 17), (0x49, 0x69, 1), (0x4A, 0x6A, 18),
   (0x4B, 0x6B, 19), (0x4C, 0x6C, 1), (0x4D, 0x6D, 20), (0x4E, 0x6E, 21), (0x4F, 0x6F, 0),
   (0x50, 0x70, 22), (0x51, 0x71, 23), (0x52, 0x72, 24), (0x53, 0x73, 25), (0x54, 0x74, 26),
   (0x56, 0x76, 27), (0x57, 0x77, 28), (0x58, 0x78, 29), (0x59, 0x79, 30), (0x5A, 0x7A, 31)]

/-- The valid entries of DEC_TABLE (41_base32_codec.md R140). -/
def decEntries : List (Byte × BitVec 5) :=
  decDigits ++ decLetters.map (fun e => (e.1, e.2.2)) ++ decLetters.map (fun e => (e.2.1, e.2.2))

/-- `DEC_TABLE[b]`; `none` is INVALID (41_base32_codec.md R140). -/
def decTable (b : Byte) : Option (BitVec 5) := decEntries.lookup b

/-- The index of the first character whose DEC_TABLE entry is INVALID (41_base32_codec.md R146). -/
def firstInvalid (cs : List Byte) : Option Nat := cs.findIdx? fun c => (decTable c).isNone

/-- The 5-bit values of the characters (41_base32_codec.md R142); every character of a text that passed
the character check has one. -/
def digitsOf (cs : List Byte) : List (BitVec 5) := cs.filterMap decTable

/-- `acc <- (acc << 5) | d` over the digits, most significant first, in the full 130 bits
(41_base32_codec.md R142, R151). Twenty-five digits fill its low 125 bits. -/
def accumulate (ds : List (BitVec 5)) : BitVec 130 :=
  ds.foldl (fun acc d => (acc <<< 5) ||| d.setWidth 130) 0

/-- What decoding a text comes to (41_base32_codec.md R142, R144). -/
inductive Decoded where
  | value (v : BitVec 128)
  | badLength
  | badChar (k : Nat)
  | badPad
  deriving DecidableEq, Repr

/-- The accepted lengths (41_base32_codec.md R145). -/
def lengthOk (len : Nat) : Bool := len == 25 || len == 26

/-- The value of an accepted text, by its length: `acc[129:2]` or `zext_128(acc[124:0])`
(41_base32_codec.md R142). -/
def decodedValue (len : Nat) (acc : BitVec 130) : BitVec 128 :=
  if len = 26 then acc.extractLsb' 2 128 else (acc.extractLsb' 0 125).setWidth 128

/-- The discarded bits: `acc[1:0]` of a 26-character text, none of a 25-character one
(41_base32_codec.md R142). -/
def padBits (len : Nat) (acc : BitVec 130) : BitVec 2 :=
  if len = 26 then acc.extractLsb' 0 2 else 0

/-- Decode the characters of a text of a stated length: the length first, then the lowest illegal
character, then in strict mode the pad (41_base32_codec.md R143, R144; 60_exceptions.md R208). -/
def decodeText (strict : BitVec 1) (len : Nat) (cs : List Byte) : Decoded :=
  if lengthOk len then
    match firstInvalid cs with
    | some k => .badChar k
    | none =>
      let acc := accumulate (digitsOf cs)
      if strict = 1 ∧ padBits len acc ≠ 0 then .badPad else .value (decodedValue len acc)
  else .badLength

/-- How DEC ends, by what the decoding came to (41_base32_codec.md R143). -/
def State.finishDecode (s : State) (rd : Reg) : Decoded → State
  | .value v => s.finishWide rd (Wide.ofValue v)
  | .badLength => s.raise .invalidFormat detailLength 0
  | .badChar k => s.raise .invalidFormat detailChar (BitVec.ofNat 5 k)
  | .badPad => s.raise .invalidFormat detailPad 0

/-- Every character DEC reads carries the written mark; it reads none when the length is wrong
(41_base32_codec.md R143; 10_state.md R24, R34). -/
def State.decodeWritten (s : State) : Bool :=
  !lengthOk s.tlen.toNat || s.textWritten s.tlen.toNat

/-- `dec wd` (41_base32_codec.md R143 to R149). -/
def execDec (rd : Reg) (s : State) : Host.Outcome State Fault Refusal :=
  endCommand s.decodeWritten
    (s.finishDecode rd (decodeText s.strict s.tlen.toNat (s.text s.tlen.toNat))) (s.loseWide rd)

end Sys2Proof.Machine
end

