-- ==== Sys2Proof/Machine/CompareHash.lean ====
section
/-! DEFINITION. The comparator and the hash: CMP and HASH (42_compare_hash.md). -/

namespace Sys2Proof.Machine

/-- Identifier byte j, `B[j] = V[127-8j : 120-8j]`: byte 0 is the most significant
(00_scope.md R13, 20_memory.md R51). -/
def idByte (v : BitVec 128) (j : Nat) : Byte := v.extractLsb' (120 - 8 * j) 8

/-- The 16 identifier bytes, byte 0 first (00_scope.md R13). -/
def idBytes (v : BitVec 128) : List Byte := (List.range 16).map (idByte v)

/-- Unsigned lexicographic comparison, the first differing byte deciding (42_compare_hash.md R170). -/
def compareBytes : List Byte → List Byte → Ordering
  | a :: as, b :: bs => if a < b then .lt else if b < a then .gt else compareBytes as bs
  | _, _ => .eq

/-- `compare(A, B)` (42_compare_hash.md R170). -/
def compareWide (x y : Wide) : Ordering := compareBytes (idBytes x.value) (idBytes y.value)

/-- A command writes R and completes without error (60_exceptions.md R205, R206). -/
def State.finishResult (s : State) (v : Word) : State := (s.writeResult v).succeed

/-- `cmp ws1, ws2` (42_compare_hash.md R171, R172). -/
def execCmp (rs1 rs2 : Reg) (s : State) : Host.Outcome State Fault Refusal :=
  endCommand (s.widesWritten rs1 rs2)
    (s.finishResult (comparisonCode (compareWide (s.wide rs1) (s.wide rs2)))) s.loseResult

/-- One step of the recurrence, `h*31 + byte` modulo 2^32, the byte unsigned (42_compare_hash.md R175). -/
def hashStep (h : Word) (b : Byte) : Word := h * 31 + b.setWidth 32

/-- The hash from a given initial value (42_compare_hash.md R175). -/
def hashFrom (init : Word) (v : BitVec 128) : Word := (idBytes v).foldl hashStep init

/-- `hash ws`, from the parameter HASH_INIT (42_compare_hash.md R175 to R178; log 5). -/
def execHash (rs1 : Reg) (s : State) : Host.Outcome State Fault Refusal :=
  endCommand (s.wideWritten rs1) (s.finishResult (hashFrom Config.hashInit (s.wide rs1).value))
    s.loseResult

end Sys2Proof.Machine
end

