-- ==== Sys2Proof/Machine/Dispatch.lean ====
section
/-! DEFINITION. One arm per command, each a direct call of its meaning (30_encoding.md R76). -/

namespace Sys2Proof.Machine

def exec (i : Instr) (s : State) : Host.Outcome State Fault Refusal :=
  match i with
  -- 40_wide_integer.md
  | .make rd rs1 rs2 => Sys2Proof.Machine.execMake rd rs1 rs2 s
  | .shl rd rs1 n => Sys2Proof.Machine.execShl rd rs1 n s
  | .shr rd rs1 n => Sys2Proof.Machine.execShr rd rs1 n s
  | .ori rd rs1 k => Sys2Proof.Machine.execOri rd rs1 k s
  | .orx rd rs1 rs2 => Sys2Proof.Machine.execOrx rd rs1 rs2 s
  | .hi rd rs1 => Sys2Proof.Machine.execHi rd rs1 s
  | .lo rd rs1 => Sys2Proof.Machine.execLo rd rs1 s
  -- 41_base32_codec.md
  | .enc rs1 => Sys2Proof.Machine.execEnc rs1 s
  | .dec rd => Sys2Proof.Machine.execDec rd s
  -- 42_compare_hash.md
  | .cmp rs1 rs2 => Sys2Proof.Machine.execCmp rs1 rs2 s
  | .hash rs1 => Sys2Proof.Machine.execHash rs1 s

end Sys2Proof.Machine
end

