-- ==== Sys2Proof/Machine/Window.lean ====
section
/-! DEFINITION. The register window: which register an offset names, what a read of it returns and what a
write to it does (20_memory.md R54 to R62). -/

namespace Sys2Proof.Machine

/-- A word of the window (20_memory.md R55). -/
inductive WindowReg where
  /-- word k of W[i] -/
  | wide (i : Reg) (k : Fin 4)
  | result
  | tlen
  | config
  | status
  | cmd
  /-- word m of T -/
  | text (m : Fin 8)
  | reserved
  deriving DecidableEq, Repr

/-- The register map (20_memory.md R55, R56, R57), for an aligned offset below 256. -/
def windowReg (off : Nat) : WindowReg :=
  if off < 0x040 then .wide (Fin.ofNat 4 (off / 0x10)) (Fin.ofNat 4 (off / 4))
  else if off = 0x040 then .result
  else if off = 0x044 then .tlen
  else if off = 0x048 then .config
  else if off = 0x04C then .status
  else if off = 0x050 then .cmd
  else if 0x080 ≤ off ∧ off < 0x0A0 then .text (Fin.ofNat 8 (off / 4))
  else .reserved

/-- The offset of an access the unit supports: aligned, 32 bits wide, inside the window
(20_memory.md R50, R54). -/
def accessOffset (addr nbytes : Nat) : Option Nat :=
  if nbytes = 4 ∧ Config.base ≤ addr ∧ addr < Config.base + 256 ∧ (addr - Config.base) % 4 = 0 then
    some (addr - Config.base)
  else none

/-! ### Words of W and T -/

/-- Replace word k of a wide register (20_memory.md R56, R58). -/
def setWideWord (x : Wide) (k : Fin 4) (v : Word) : Wide :=
  match k with
  | 0 => { x with lo := x.lo.extractLsb' 32 32 ++ v }
  | 1 => { x with lo := v ++ x.lo.extractLsb' 0 32 }
  | 2 => { x with hi := x.hi.extractLsb' 32 32 ++ v }
  | 3 => { x with hi := v ++ x.hi.extractLsb' 0 32 }

/-- Word m of T, `T[4m+3] :: T[4m+2] :: T[4m+1] :: T[4m]` (20_memory.md R57). -/
def textWord (t : Vector Byte 32) (m : Fin 8) : Word :=
  t[4 * m.val + 3] ++ t[4 * m.val + 2] ++ t[4 * m.val + 1] ++ t[4 * m.val]

/-- Replace word m of T: `T[4m+j] <- v[8j+7:8j]` for j in 0..3 (20_memory.md R57, R58). -/
def setTextWord (t : Vector Byte 32) (m : Fin 8) (v : Word) : Vector Byte 32 :=
  (((t.set (4 * m.val) (v.extractLsb' 0 8)).set (4 * m.val + 1) (v.extractLsb' 8 8)).set
    (4 * m.val + 2) (v.extractLsb' 16 8)).set (4 * m.val + 3) (v.extractLsb' 24 8)

/-- Mark the four bytes of word m of T written (20_memory.md R58). -/
def markTextWord (marks : Vector Bool 32) (m : Fin 8) : Vector Bool 32 :=
  (((marks.set (4 * m.val) true).set (4 * m.val + 1) true).set (4 * m.val + 2) true).set
    (4 * m.val + 3) true

/-! ### Host reads and writes while BUSY = 0 -/

/-- What a read of a word of the window returns (20_memory.md R59, R60; 10_state.md R32): of W, T and R
what is marked, and a free value for what is not (70_reset_and_hazards.md R231; log 18). -/
def State.windowRead (s : State) : WindowReg → Word
  | .wide i k => s.readWideWord i k
  | .result => s.readResult
  | .tlen => s.tlen.setWidth 32
  | .config => s.strict.setWidth 32
  | .status => s.statusWord
  | .cmd => 0
  | .text m => textWord s.readT m
  | .reserved => 0

/-- What a read of the word uses has been written: only W, T and R have marks (10_state.md R34). -/
def State.windowWritten (s : State) : WindowReg → Bool
  | .wide i k => s.wWritten[i][k]
  | .result => s.rWritten
  | .text m => s.tWritten[4 * m.val] && s.tWritten[4 * m.val + 1] &&
      s.tWritten[4 * m.val + 2] && s.tWritten[4 * m.val + 3]
  | .tlen | .config | .status | .cmd | .reserved => true

/-- What a write of a word of the window does (20_memory.md R58, R60). -/
def State.windowWrite (s : State) (reg : WindowReg) (v : Word) : State :=
  match reg with
  | .wide i k =>
    { s with
      w := s.w.set i (setWideWord s.w[i] k v)
      wWritten := s.wWritten.set i (s.wWritten[i].set k true) }
  | .text m => { s with t := setTextWord s.t m v, tWritten := markTextWord s.tWritten m }
  | .tlen => { s with tlen := v.extractLsb' 0 8 }
  | .config => { s with strict := v.extractLsb' 0 1 }
  | .cmd => s.issue v
  | .result | .status | .reserved => s

end Sys2Proof.Machine
end

