-- ==== Sys2Proof/Machine/HostPort.lean ====
section
/-! DEFINITION. The host's turn: the next action of its list reaches the unit's one port
(00_scope.md R17; 20_memory.md R54, R58, R59, R65; 70_reset_and_hazards.md R232, R241 to R243). -/

namespace Sys2Proof.Machine

/-- The host has been given the word `v`. -/
def State.deliver (s : State) (v : Word) : State := { s with reads := v :: s.reads }

/-- The read of a word of the window: the word goes to the host, its use is noted, nothing else
changes (20_memory.md R59, R62; 70_reset_and_hazards.md R231). -/
def State.hostRead (s : State) (reg : WindowReg) : State :=
  (s.noteUse (s.windowWritten reg)).deliver (s.windowRead reg)

/-- Which word an access reaches, or the fault it is: the form of the access first
(20_memory.md R54; log 7), then the hazard (70_reset_and_hazards.md R241). `allowedBusy` says which
words may be accessed while BUSY = 1. -/
def State.access (s : State) (addr nbytes : Nat) (allowedBusy : WindowReg → Bool) :
    Except Fault WindowReg :=
  match accessOffset addr nbytes with
  | none => .error .hostAccessFault
  | some off =>
    if s.busy && !allowedBusy (windowReg off) then .error .hostHazard else .ok (windowReg off)

/-- The host reads (20_memory.md R59); while BUSY = 1 only STATUS (70_reset_and_hazards.md R241, R242). -/
def hostReadTurn (addr nbytes : Nat) (s : State) : Host.Outcome State Fault Refusal :=
  match s.access addr nbytes (fun reg => reg == .status) with
  | .ok reg => .next (s.hostRead reg)
  | .error f => .fault f

/-- The host writes (20_memory.md R58); never while BUSY = 1 (70_reset_and_hazards.md R241). -/
def hostWriteTurn (addr nbytes : Nat) (v : Word) (s : State) : Host.Outcome State Fault Refusal :=
  match s.access addr nbytes (fun _ => false) with
  | .ok reg => .next (s.windowWrite reg v)
  | .error f => .fault f

/-- One poll of `wait`: read STATUS; go on to `rest` once BUSY reads 0, else poll again
(30_encoding.md R83; 70_reset_and_hazards.md R243). -/
def State.poll (s : State) (rest : List HostOp) : State :=
  let s' := s.hostRead .status
  if s.busy then s' else { s' with host := rest }

/-- One turn of the host. With no action left it does nothing (70_reset_and_hazards.md R247). -/
def hostTurn (s : State) : Host.Outcome State Fault Refusal :=
  match s.host with
  | [] => .next s
  | .idle :: rest => .next { s with host := rest }
  | .reset :: rest => .next ({ s with host := rest }.resetUnit)
  | .wait :: rest => .next (s.poll rest)
  | .read addr nbytes :: rest => hostReadTurn addr nbytes { s with host := rest }
  | .write addr nbytes v :: rest => hostWriteTurn addr nbytes v { s with host := rest }

/-! ### The notation of host sequences (30_encoding.md R83) -/

/-- `write OFF, V` -/
def writeOp (off : Nat) (v : Word) : HostOp := .write (Config.base + off) 4 v

/-- `read OFF` -/
def readOp (off : Nat) : HostOp := .read (Config.base + off) 4

/-- `cmd <line>`: write the command's encoding to CMD. -/
def cmdOp (i : Instr) : HostOp := writeOp 0x050 (encode i)

end Sys2Proof.Machine
end

