-- ==== Sys2Proof/Machine/Step.lean ====
section
/-! DEFINITION. One step of the machine: the unit completes a pending command whose latency is over, or the
host has its turn (00_scope.md R17; 70_reset_and_hazards.md R240). -/

namespace Sys2Proof.Machine

/-- The unit's one step: decode the pending word, run it or reject it (70_reset_and_hazards.md R240;
30_encoding.md R77). A rejected word is a completed command with an error status, not a stop. -/
def runCommand (c : Word) (s : State) : Host.Outcome State Fault Refusal :=
  match decode c with
  | .ok i => exec i s
  | .error e => .next (s.rejectCommand e)

/-- One step (70_reset_and_hazards.md R240; log 4): a pending command with no latency left completes
before anything else; with latency left, one step of it passes and the host has its turn. -/
def step (s : State) : Host.Outcome State Fault Refusal :=
  match s.pending with
  | none => hostTurn s
  | some p => if p.latLeft = 0 then runCommand p.command s else hostTurn s.tick

/-- The state with a command word issued and its latency over, so that the next step runs it (log 10).
The unit fetches nothing (10_state.md R27): the word written to CMD is the instruction (R32). -/
def State.withFetchWord (s : State) (nbits w : Nat) : State :=
  { s with pending := some ⟨BitVec.ofNat 32 (w % 2 ^ nbits), 0⟩ }

end Sys2Proof.Machine
end

