-- ==== Sys2Proof/Machine/Assembler.lean ====
section
/-! DEFINITION. The assembler of 30_encoding.md section 6: one line of text to the commands it stands for
(R81), the pseudo-instructions (R82), and the host's `cmd <line>` (R83; log 19). It is notation: no step of
the machine uses it. Blanks between tokens are skipped, which the spec leaves open (log 13). -/

namespace Sys2Proof.Machine

/-- An operand of a line: a register w0..w3 or an unsigned immediate (30_encoding.md R81). -/
inductive AsmOperand where
  | reg (r : Reg)
  | imm (n : Nat)
  deriving DecidableEq, Repr

/-- A register operand, `w0`..`w3` (30_encoding.md R81). -/
def asmReg : List Char → Option Reg
  | ['w', '0'] => some 0
  | ['w', '1'] => some 1
  | ['w', '2'] => some 2
  | ['w', '3'] => some 3
  | _ => none

/-- The value of a digit in base 10 or 16. -/
def digitValue (base : Nat) (c : Char) : Option Nat :=
  let n := c.toNat
  let v := if 0x30 ≤ n ∧ n ≤ 0x39 then some (n - 0x30)
    else if 0x41 ≤ n ∧ n ≤ 0x46 then some (n - 0x41 + 10)
    else if 0x61 ≤ n ∧ n ≤ 0x66 then some (n - 0x61 + 10)
    else none
  v.filter (· < base)

/-- The number a non-empty digit string writes; one wrong digit refuses it. -/
def digitsNumber (base : Nat) (cs : List Char) : Option Nat :=
  match cs with
  | [] => none
  | _ => cs.foldl (fun acc c => acc.bind fun n => (digitValue base c).map fun d => n * base + d) (some 0)

/-- An immediate operand: unsigned decimal or `0x` hexadecimal (30_encoding.md R81). -/
def asmImm : List Char → Option Nat
  | '0' :: 'x' :: cs => digitsNumber 16 cs
  | cs => digitsNumber 10 cs

/-- An operand (30_encoding.md R81). -/
def asmOperand (cs : List Char) : Option AsmOperand :=
  match asmReg cs with
  | some r => some (.reg r)
  | none => (asmImm cs).map .imm

/-- A shift amount in range, 0..255; others are refused, not truncated (30_encoding.md R81). -/
def asmShift (make : Nat → Instr) (n : Nat) : Option (List Instr) :=
  if n ≤ 255 then some [make n] else none

/-- An OR immediate in range, 0..limit; others are refused, not truncated (30_encoding.md R81). -/
def asmSmall (limit : Nat) (make : BitVec 16 → List Instr) (k : Nat) : Option (List Instr) :=
  if k ≤ limit then some (make (BitVec.ofNat 16 k)) else none

/-- The commands of a mnemonic, in lower case, with its operands (30_encoding.md R81, R82). -/
def asmCommand : List Char → List AsmOperand → Option (List Instr)
  | ['m', 'a', 'k', 'e'], [.reg d, .reg a, .reg b] => some [.make d a b]
  | ['s', 'h', 'l'], [.reg d, .reg a, .imm n] => asmShift (.shl d a) n
  | ['s', 'h', 'r'], [.reg d, .reg a, .imm n] => asmShift (.shr d a) n
  | ['o', 'r', 'i'], [.reg d, .reg a, .imm k] => asmSmall 65535 (fun k => [.ori d a k]) k
  | ['o', 'r', 'x'], [.reg d, .reg a, .reg b] => some [.orx d a b]
  | ['h', 'i'], [.reg d, .reg a] => some [.hi d a]
  | ['l', 'o'], [.reg d, .reg a] => some [.lo d a]
  | ['e', 'n', 'c'], [.reg a] => some [.enc a]
  | ['d', 'e', 'c'], [.reg d] => some [.dec d]
  | ['c', 'm', 'p'], [.reg a, .reg b] => some [.cmp a b]
  | ['h', 'a', 's', 'h'], [.reg a] => some [.hash a]
  | ['m', 'o', 'v'], [.reg d, .reg a] => some [.ori d a 0]
  | ['c', 'l', 'r'], [.reg d, .reg a] => some [.shr d a 128]
  | ['n', 'o', 'p'], [] => some [.ori 0 0 0]
  | ['l', 'i'], [.reg d, .reg a, .imm k] =>
    asmSmall 65535 (fun k => [.shr d a 128, .ori d d k]) k
  | ['s', 'h', 'l', '5', 'o', 'r'], [.reg d, .reg a, .imm v] =>
    asmSmall 31 (fun v => [.shl d a 5, .ori d d v]) v
  | _, _ => none

/-! ### The text of a line -/

/-- A blank between tokens (log 13). -/
def isBlank (c : Char) : Bool := c == ' ' || c == '\t'

/-- Drop the blanks at both ends. -/
def trimBlanks (cs : List Char) : List Char :=
  ((cs.dropWhile isBlank).reverse.dropWhile isBlank).reverse

/-- Cut a text at its commas; a text has at least one piece. -/
def splitCommas : List Char → List (List Char)
  | [] => [[]]
  | c :: cs =>
    match splitCommas cs with
    | [] => [[c]]
    | p :: ps => if c == ',' then [] :: p :: ps else (c :: p) :: ps

/-- A letter in lower case: mnemonics are case-insensitive (30_encoding.md R81). -/
def lowerCase (c : Char) : Char :=
  if 0x41 ≤ c.toNat ∧ c.toNat ≤ 0x5A then Char.ofNat (c.toNat + 0x20) else c

/-- The operands of a line; none if there is no text after the mnemonic (30_encoding.md R81). -/
def asmOperands (cs : List Char) : Option (List AsmOperand) :=
  match trimBlanks cs with
  | [] => some []
  | text => (splitCommas text).mapM fun p => asmOperand (trimBlanks p)

/-- Assemble one line: the mnemonic, then operands separated by commas, `;` starting a comment
(30_encoding.md R81). An empty line stands for no command; a line that is none of the forms is refused. -/
def assembleLine (line : List Char) : Option (List Instr) :=
  match trimBlanks (line.takeWhile (· != ';')) with
  | [] => some []
  | text =>
    match asmOperands (text.dropWhile fun c => !isBlank c) with
    | none => none
    | some ops => asmCommand ((text.takeWhile fun c => !isBlank c).map lowerCase) ops

/-- The host's `cmd <line>`: a CMD write of the command's encoding (30_encoding.md R83). R83 gives one
write of one encoding and is silent on the pseudo-instructions that are two commands; DESIGN CHOICE
(log 19): they are a CMD write each with a `wait` between, as 70_reset_and_hazards.md R243 asks after
each CMD write. -/
def cmdLine (line : List Char) : Option (List HostOp) :=
  (assembleLine line).map fun commands => (commands.map cmdOp).intersperse .wait

end Sys2Proof.Machine
end

