-- ==== Sys2Proof/Safety.lean ====
section
/-! DEFINITION. The terms the claims use: legal status, a run's end, a clean run, what a command leaves
alone, and when two states differ only in what was never written. -/

namespace Sys2Proof.Machine

/-! ### Status -/

/-- The outcomes 60_exceptions.md R203 lists as produced: success, the three InvalidFormat causes (an
index only for CHAR, below 26) and the two IllegalCommand causes. -/
def Status.Legal (st : Status) : Prop :=
  st = Status.ok ∨ st = ⟨1, 1, 0⟩ ∨ (st.err = 1 ∧ st.detail = 2 ∧ st.index.toNat ≤ 25) ∨
    st = ⟨1, 3, 0⟩ ∨ st = ⟨4, 1, 0⟩ ∨ st = ⟨4, 2, 0⟩

/-- The command has completed without error (60_exceptions.md R205; 70_reset_and_hazards.md R240). -/
def State.Succeeded (t : State) : Prop := t.status = Status.ok ∧ t.pending = none

/-- The command has completed with this error (60_exceptions.md R204; 70_reset_and_hazards.md R240). -/
def State.Failed (t : State) (err detail : BitVec 4) (index : BitVec 5) : Prop :=
  t.status = ⟨err, detail, index⟩ ∧ t.pending = none

/-! ### Runs -/

/-- No read so far used state that had not been written: no UnwrittenRead is recorded
(60_exceptions.md R210; log 2). -/
def State.Clean (s : State) : Prop := s.unwrittenRead = false

/-- Nothing is left to do: the host has no action left and no command is pending
(70_reset_and_hazards.md R247). -/
def State.Quiet (s : State) : Prop := s.host = [] ∧ s.pending = none

/-- The run has ended, and this is its final state (70_reset_and_hazards.md R247). A state that holds the
record of a fault is never final (93_implementation_defined.md section 1). -/
def State.Ended (s : State) : Prop := s.Quiet ∧ s.Clean

/-! ### Frames -/

/-- The part of the state that no command writes: CONFIG, and the model's view of the host
(10_state.md R20). -/
def SameControl (s t : State) : Prop := t.strict = s.strict ∧ t.host = s.host ∧ t.reads = s.reads

/-- What every command keeps: CONFIG and the model's view of the host; the record stays, and the count
of uses of unwritten state does not fall. -/
def Keeps (s t : State) : Prop :=
  t.strict = s.strict ∧ t.host = s.host ∧ t.reads = s.reads ∧
    (s.unwrittenRead = true → t.unwrittenRead = true) ∧ s.freeUses ≤ t.freeUses

/-- Wide register r and its marks are unchanged. -/
def SameWide (r : Reg) (s t : State) : Prop := t.wide r = s.wide r ∧ t.wWritten[r] = s.wWritten[r]

/-- T, TLEN and the marks of T are unchanged. -/
def SameText (s t : State) : Prop := t.t = s.t ∧ t.tWritten = s.tWritten ∧ t.tlen = s.tlen

/-- R and its mark are unchanged. -/
def SameResult (s t : State) : Prop := t.r = s.r ∧ t.rWritten = s.rWritten

/-- The frame of a command that writes `W[rd]` (10_state.md R20, R23). -/
def WideFrame (rd : Reg) (s t : State) : Prop :=
  (∀ r, r ≠ rd → SameWide r s t) ∧ SameText s t ∧ SameResult s t ∧ SameControl s t

/-- The frame of a command that writes R (10_state.md R26). -/
def ResultFrame (s t : State) : Prop := (∀ r, SameWide r s t) ∧ SameText s t ∧ SameControl s t

/-- The frame of ENC (41_base32_codec.md R133): T[26..31] and their marks, W, R, CONFIG. -/
def EncFrame (s t : State) : Prop :=
  (∀ k : Fin 32, 26 ≤ k.val → t.t[k] = s.t[k] ∧ t.tWritten[k] = s.tWritten[k]) ∧
    (∀ r, SameWide r s t) ∧ SameResult s t ∧ SameControl s t

/-- Nothing but STATUS and the pending command differs: what a failed command leaves
(60_exceptions.md R200, R204, R206). -/
def StatusOnly (s t : State) : Prop :=
  (∀ r, SameWide r s t) ∧ SameText s t ∧ SameResult s t ∧ SameControl s t ∧
    t.unwrittenRead = s.unwrittenRead ∧ t.freeUses = s.freeUses

/-- A command that read an unwritten operand has ended without a result: the record is made, one more
use is counted, nothing is pending, and else only written marks differ
(70_reset_and_hazards.md R231; log 2). -/
def NoResult (s t : State) : Prop :=
  t = { s with
    unwrittenRead := true, freeUses := s.freeUses + 1, pending := none,
    wWritten := t.wWritten, tWritten := t.tWritten, rWritten := t.rWritten }

/-- The command has completed without error and used no unwritten state (60_exceptions.md R205). -/
def Completed (s t : State) : Prop :=
  t.Succeeded ∧ t.unwrittenRead = s.unwrittenRead ∧ t.freeUses = s.freeUses

/-! ### Encodings and texts as numbers -/

/-- The command word with these fields, Z = 0, as a number (30_encoding.md R71). -/
def fieldSum (op rd rs1 rs2 imm : Nat) : Nat :=
  op * 2 ^ 26 + rd * 2 ^ 24 + rs1 * 2 ^ 22 + rs2 * 2 ^ 20 + imm

/-- The number a list of 5-bit groups writes, most significant first (41_base32_codec.md R142). -/
def radix32 (ds : List (BitVec 5)) : Nat := ds.foldl (fun a d => a * 32 + d.toNat) 0

/-- Every character of `T[0..len-1]` is written and has a DEC_TABLE entry, and `ds` are their values
(41_base32_codec.md R142; 70_reset_and_hazards.md R234). -/
def TextDigits (s : State) (len : Nat) (ds : List (BitVec 5)) : Prop :=
  ds.length = len ∧
    ∀ k : Fin 32, k.val < len → s.tWritten[k] = true ∧ decTable s.t[k] = ds[k.val]?

/-- Character k of T is the first invalid one: it has no DEC_TABLE entry, and each before it has one
(41_base32_codec.md R146). -/
def FirstInvalidAt (s : State) (k : Fin 32) : Prop :=
  decTable s.t[k] = none ∧ ∀ j : Fin 32, j.val < k.val → decTable s.t[j] ≠ none

/-! ### States that differ only in what was never written -/

/-- The two states agree on everything but the content of unmarked W words, T bytes and R
(10_state.md R34). -/
def AgreeOnWritten (a b : State) : Prop :=
  a.wWritten = b.wWritten ∧ a.tWritten = b.tWritten ∧ a.rWritten = b.rWritten ∧
  (∀ i k : Fin 4, a.wWritten[i][k] = true → wideWord (a.wide i) k = wideWord (b.wide i) k) ∧
  (∀ k : Fin 32, a.tWritten[k] = true → a.t[k] = b.t[k]) ∧
  (a.rWritten = true → a.r = b.r) ∧
  a.tlen = b.tlen ∧ a.strict = b.strict ∧ a.status = b.status ∧ a.pending = b.pending ∧
  a.unwrittenRead = b.unwrittenRead ∧ a.freeUses = b.freeUses ∧ a.host = b.host ∧ a.reads = b.reads

/-! ### Who may change what -/

/-- The unit runs this command in the next step (70_reset_and_hazards.md R240). -/
def State.Runs (s : State) (i : Instr) : Prop :=
  ∃ p, s.pending = some p ∧ p.latLeft = 0 ∧ decode p.command = .ok i

/-- The host's next action is a 32-bit write to the word of the window at this offset
(20_memory.md R54, R58). -/
def State.HostWrites (s : State) (off : Nat) : Prop :=
  ∃ v rest, s.host = writeOp off v :: rest

/-- The host's next action is a reset (70_reset_and_hazards.md R230). -/
def State.HostResets (s : State) : Prop := ∃ rest, s.host = .reset :: rest

/-- The wide register a command names as its destination (10_state.md R20, R23). -/
def destinationOf : Instr → Option Reg
  | .make rd _ _ | .shl rd _ _ | .shr rd _ _ | .ori rd _ _ | .orx rd _ _ | .hi rd _ | .lo rd _
  | .dec rd => some rd
  | .enc _ | .cmp _ _ | .hash _ => none

/-! ### The opcode map as the spec prints it -/

/-- The rows of 30_encoding.md R76: OP, match, mask. -/
def commandRows : List (Nat × Word × Word) :=
  [(0x01, 0x04000000, 0xFC0FFFFF), (0x02, 0x08000000, 0xFC3FFF00), (0x03, 0x0C000000, 0xFC3FFF00),
   (0x04, 0x10000000, 0xFC3F0000), (0x05, 0x14000000, 0xFC0FFFFF), (0x06, 0x18000000, 0xFC3FFFFF),
   (0x07, 0x1C000000, 0xFC3FFFFF), (0x10, 0x40000000, 0xFF3FFFFF), (0x11, 0x44000000, 0xFCFFFFFF),
   (0x18, 0x60000000, 0xFF0FFFFF), (0x19, 0x64000000, 0xFF3FFFFF)]

end Sys2Proof.Machine
end

