-- ==== Sys2Proof/Certificates/Slice0/Obligations.lean ====
section
/-! DEFINITION. The statements about the machine, each from the rules of spec/ its docstring names. -/

open Sys2Proof Sys2Proof.Machine

/-! ## Encoding (30_encoding.md) -/

/-- Words of 95_test_vectors.md, one or more of each family, decode to the commands they are listed for. -/
def Obligations.DecodeSpecWords : Prop :=
  decode 0x05900000 = .ok (.make 1 2 1) ∧ decode 0x0840003F = .ok (.shl 0 1 63) ∧
  decode 0x0E000064 = .ok (.shr 2 0 100) ∧ decode 0x1040FFFF = .ok (.ori 0 1 0xFFFF) ∧
  decode 0x17D00000 = .ok (.orx 3 3 1) ∧ decode 0x1B000000 = .ok (.hi 3 0) ∧
  decode 0x1D400000 = .ok (.lo 1 1) ∧ decode 0x40800000 = .ok (.enc 2) ∧
  decode 0x46000000 = .ok (.dec 2) ∧ decode 0x60C00000 = .ok (.cmp 3 0) ∧
  decode 0x64800000 = .ok (.hash 2)

/-- Decoding an encoded well-formed command gives it back, for every command and every operand
(R70 to R77). -/
def Obligations.DecodeEncode : Prop :=
  ∀ i : Instr, i.wellFormed = true → decode (encode i) = .ok i

/-- A word that decodes to a command is that command's only encoding: every bit of it is read or must
be 0 (R76, R77). -/
def Obligations.EncodeDecode : Prop :=
  ∀ (c : Word) (i : Instr), decode c = .ok i → i.wellFormed = true ∧ encode i = c

/-- R77: what the unit does with a pending word, by the table of R76. A reserved opcode is
IllegalCommand 1, a non-zero must-be-zero field is IllegalCommand 2, both writing STATUS only; every
other word is executed as the command of its row. -/
def Obligations.PendingWordDecoded : Prop :=
  ∀ (s : State) (c : Word), s.pending = some ⟨c, 0⟩ →
    (c.toNat / 2 ^ 26 ∉ commandRows.map (·.1) →
      ∃ t, step s = .next t ∧ t.Failed 4 1 0 ∧ StatusOnly s t) ∧
    (∀ row ∈ commandRows, c.toNat / 2 ^ 26 = row.1 →
      (c &&& row.2.2 ≠ row.2.1 →
        ∃ t, step s = .next t ∧ t.Failed 4 2 0 ∧ StatusOnly s t) ∧
      (c &&& row.2.2 = row.2.1 →
        ∃ i, decode c = .ok i ∧ i.opcode.bits.toNat = row.1 ∧ step s = exec i s))

/-- R82: the pseudo-instructions expand as the table says, and their effects are its notes, of written
sources (R234; a source that is not written is UnwrittenUseRecorded's). -/
def Obligations.PseudoInstructions : Prop :=
  ∀ (d a : Reg) (s : State),
    (asmCommand "mov".toList [.reg d, .reg a] = some [.ori d a 0] ∧
      (s.wideWritten a = true → ∃ t, exec (.ori d a 0) s = .next t ∧ t.wide d = s.wide a)) ∧
    (asmCommand "clr".toList [.reg d, .reg a] = some [.shr d a 128] ∧
      (s.wideWritten a = true → ∃ t, exec (.shr d a 128) s = .next t ∧ (t.wide d).value = 0)) ∧
    (asmCommand "nop".toList [] = some [.ori 0 0 0] ∧
      (s.wideWritten 0 = true → ∃ t, exec (.ori 0 0 0) s = .next t ∧ (∀ r, SameWide r s t) ∧
        SameText s t ∧ SameResult s t ∧ SameControl s t ∧ Completed s t)) ∧
    (∀ k, k ≤ 65535 → asmCommand "li".toList [.reg d, .reg a, .imm k] =
        some [.shr d a 128, .ori d d (BitVec.ofNat 16 k)] ∧
      (s.wideWritten a = true → ∃ t u, exec (.shr d a 128) s = .next t ∧
        exec (.ori d d (BitVec.ofNat 16 k)) t = .next u ∧ (u.wide d).value.toNat = k)) ∧
    (∀ v, v ≤ 31 → asmCommand "shl5or".toList [.reg d, .reg a, .imm v] =
        some [.shl d a 5, .ori d d (BitVec.ofNat 16 v)] ∧
      (s.wideWritten a = true → ∃ t u, exec (.shl d a 5) s = .next t ∧
        exec (.ori d d (BitVec.ofNat 16 v)) t = .next u ∧
        (u.wide d).value.toNat = (s.wide a).value.toNat * 32 % 2 ^ 128 + v))

/-! ## A step (70_reset_and_hazards.md) -/

/-- A step runs the decoded command: when a pending word's latency is over and it decodes to i, the
step is exec of i and nothing around it (R240). -/
def Obligations.StepRunsDecoded : Prop :=
  ∀ (s : State) (p : Pending) (i : Instr), s.pending = some p → p.latLeft = 0 →
    decode p.command = .ok i → step s = exec i s

/-- Otherwise the step is a turn of the host; while a command is pending, one step of its latency
passes (the model's choice of log 4). -/
def Obligations.StepGivesHostItsTurn : Prop :=
  ∀ s : State, (s.pending = none → step s = hostTurn s) ∧
    ∀ c n, s.pending = some ⟨c, n + 1⟩ → step s = hostTurn { s with pending := some ⟨c, n⟩ }

/-- R240, R242, R243: a host that waits polls STATUS with BUSY = 1 and the old outcome for the rest of
the latency, the command then completes from the state the host left, and one more poll reads
BUSY = 0 with the new outcome and ends the wait. One step per cycle is the model's (log 4). -/
def Obligations.WaitSeesCompletion : Prop :=
  ∀ (s : State) (p : Pending) (rest : List HostOp), s.pending = some p → s.host = .wait :: rest →
    ∃ t, step { s with pending := some ⟨p.command, 0⟩,
                        reads := List.replicate p.latLeft (s.status.word true) ++ s.reads } = .next t ∧
      t.pending = none ∧
      core.run (p.latLeft + 1) s = .next t ∧
      core.run (p.latLeft + 2) s =
        .next { t with host := rest, reads := t.status.word false :: t.reads }

/-- R18, R240, R243: every issued command completes; a CMD write and a wait end with BUSY = 0 after a
number of steps that the latency fixes. -/
def Obligations.IssuedCommandCompletes : Prop :=
  ∀ (s : State) (c : Word) (rest : List HostOp), s.pending = none →
    s.host = writeOp 0x050 c :: .wait :: rest →
    ∃ t, core.run (Config.lat c + 3) s = .next t ∧ t.pending = none ∧ t.host = rest ∧
      t.reads.head? = some (t.status.word false)

/-- R247: once the host has no action left and nothing is pending, no step changes anything (the model
keeps answering the same state: log 14). A run that has recorded UnwrittenRead never comes to a final
state (93_implementation_defined.md section 1; the record is the model's, log 2). -/
def Obligations.EndedRunStays : Prop :=
  (∀ s : State, s.Quiet → step s = .next s) ∧
  ∀ (n : Nat) (s t : State), s.unwrittenRead = true → core.run n s = .next t → ¬ t.Ended

/-! ## Wide-integer commands (40_wide_integer.md) -/

/-- R100: MAKE, of written sources (R234). For this command and those below, a source that is not
written is UnwrittenUseRecorded's. -/
def Obligations.MakeResult : Prop :=
  ∀ (rd rs1 rs2 : Reg) (s : State),
    (encode (.make rd rs1 rs2)).toNat = fieldSum 0x01 rd rs1 rs2 0 ∧
    (s.wideWritten rs1 = true → s.wideWritten rs2 = true →
      ∃ t, exec (.make rd rs1 rs2) s = .next t ∧
        (t.wide rd).hi = (s.wide rs1).lo ∧ (t.wide rd).lo = (s.wide rs2).lo ∧ Completed s t)

/-- R103: SHL on exact naturals, for every encodable amount, of a written source; the meaning is the
limb procedure R105. -/
def Obligations.ShlResult : Prop :=
  ∀ (rd rs1 : Reg) (n : Nat) (s : State), n ≤ 255 →
    (encode (.shl rd rs1 n)).toNat = fieldSum 0x02 rd rs1 0 n ∧
    (s.wideWritten rs1 = true →
      ∃ t, exec (.shl rd rs1 n) s = .next t ∧
        (t.wide rd).value.toNat = (s.wide rs1).value.toNat * 2 ^ n % 2 ^ 128 ∧
        (128 ≤ n → (t.wide rd).value = 0) ∧ Completed s t)

/-- R108: SHR on exact naturals, for every encodable amount, of a written source; the meaning is the
limb procedure R109. -/
def Obligations.ShrResult : Prop :=
  ∀ (rd rs1 : Reg) (n : Nat) (s : State), n ≤ 255 →
    (encode (.shr rd rs1 n)).toNat = fieldSum 0x03 rd rs1 0 n ∧
    (s.wideWritten rs1 = true →
      ∃ t, exec (.shr rd rs1 n) s = .next t ∧
        (t.wide rd).value.toNat = (s.wide rs1).value.toNat / 2 ^ n ∧
        (128 ≤ n → (t.wide rd).value = 0) ∧ Completed s t)

/-- R111: ORI, of a written source; bits 127..16 are copied. -/
def Obligations.OriResult : Prop :=
  ∀ (rd rs1 : Reg) (k : BitVec 16) (s : State),
    (encode (.ori rd rs1 k)).toNat = fieldSum 0x04 rd rs1 0 k.toNat ∧
    (s.wideWritten rs1 = true →
      ∃ t, exec (.ori rd rs1 k) s = .next t ∧
        (t.wide rd).value = (s.wide rs1).value ||| k.setWidth 128 ∧
        (t.wide rd).value.extractLsb' 16 112 = (s.wide rs1).value.extractLsb' 16 112 ∧ Completed s t)

/-- R113: ORX, of written sources. -/
def Obligations.OrxResult : Prop :=
  ∀ (rd rs1 rs2 : Reg) (s : State),
    (encode (.orx rd rs1 rs2)).toNat = fieldSum 0x05 rd rs1 rs2 0 ∧
    (s.wideWritten rs1 = true → s.wideWritten rs2 = true →
      ∃ t, exec (.orx rd rs1 rs2) s = .next t ∧
        (t.wide rd).value = (s.wide rs1).value ||| (s.wide rs2).lo.setWidth 128 ∧ Completed s t)

/-- R116: HI, of a written source. -/
def Obligations.HiResult : Prop :=
  ∀ (rd rs1 : Reg) (s : State),
    (encode (.hi rd rs1)).toNat = fieldSum 0x06 rd rs1 0 0 ∧
    (s.wideWritten rs1 = true →
      ∃ t, exec (.hi rd rs1) s = .next t ∧ (t.wide rd).hi = 0 ∧
        (t.wide rd).lo = (s.wide rs1).value.extractLsb' 64 64 ∧ Completed s t)

/-- R118: LO, of a written source. -/
def Obligations.LoResult : Prop :=
  ∀ (rd rs1 : Reg) (s : State),
    (encode (.lo rd rs1)).toNat = fieldSum 0x07 rd rs1 0 0 ∧
    (s.wideWritten rs1 = true →
      ∃ t, exec (.lo rd rs1) s = .next t ∧ (t.wide rd).hi = 0 ∧
        (t.wide rd).lo = (s.wide rs1).value.extractLsb' 0 64 ∧ Completed s t)

/-- The frame of MAKE, SHL, SHR, ORI, ORX, HI and LO: only W[rd], its marks, STATUS, the pending
command, the record and the count of free uses differ, and every other written word of the window
reads as before (10_state.md R20, R23). A next state on sources that are not written is the model's
choice (log 2). -/
def Obligations.WideCommandsFrame : Prop :=
  ∀ (rd rs1 rs2 : Reg) (n : Nat) (k : BitVec 16) (s : State) (i : Instr),
    i ∈ [.make rd rs1 rs2, .shl rd rs1 n, .shr rd rs1 n, .ori rd rs1 k, .orx rd rs1 rs2,
      .hi rd rs1, .lo rd rs1] →
    ∃ t, exec i s = .next t ∧ WideFrame rd s t ∧
      ∀ reg, reg ≠ .status → (∀ j, reg ≠ .wide rd j) → s.windowWritten reg = true →
        t.windowRead reg = s.windowRead reg

/-- The identities of R122, which the spec derives, on the operations the meanings use. -/
def Obligations.WideIdentities : Prop :=
  ∀ (x y : Wide) (n a b : Nat),
    wideHalf (wideMake x.lo y.lo).hi = wideHalf x.lo ∧
    wideHalf (wideMake x.lo y.lo).lo = wideHalf y.lo ∧
    wideOr (wideShl (wideHalf x.hi) 64) (smallRegister (wideHalf x.lo)) = x ∧
    (n ≤ 128 → (wideShr (wideShl x n) n).value.toNat = x.value.toNat % 2 ^ (128 - n)) ∧
    (a + b ≤ 255 → wideShl (wideShl x a) b = wideShl x (a + b)) ∧
    wideOr x (smallImmediate 0) = x ∧ wideOr x (smallRegister x) = x

/-! ## Base32 codec (41_base32_codec.md) -/

/-- R131: ENC_TABLE, whose codes increase strictly. -/
def Obligations.EncTableAsListed : Prop :=
  (List.range 32).map (fun g => (encTable (BitVec.ofNat 5 g)).toNat) =
    [0x30, 0x31, 0x32, 0x33, 0x34, 0x35, 0x36, 0x37] ++
    [0x38, 0x39, 0x41, 0x42, 0x43, 0x44, 0x45, 0x46] ++
    [0x47, 0x48, 0x4A, 0x4B, 0x4D, 0x4E, 0x50, 0x51] ++
    [0x52, 0x53, 0x54, 0x56, 0x57, 0x58, 0x59, 0x5A] ∧
  ∀ g h : BitVec 5, g < h → encTable g < encTable h

/-- R132: ENC of a written source writes the 26 symbols; group k is digit 25-k of 4V in base 32. With
R133's effects: TLEN = 26, and T[26..31], W, R and CONFIG stay. -/
def Obligations.EncResult : Prop :=
  ∀ (rs1 : Reg) (s : State),
    (encode (.enc rs1)).toNat = fieldSum 0x10 0 rs1 0 0 ∧
    (s.wideWritten rs1 = true →
      ∃ t, exec (.enc rs1) s = .next t ∧
        (∀ k : Fin 32, k.val < 26 →
          t.t[k] = encTable (BitVec.ofNat 5 ((s.wide rs1).value.toNat * 4 / 32 ^ (25 - k.val))) ∧
          t.tWritten[k] = true) ∧
        t.tlen = 26 ∧ EncFrame s t ∧ Completed s t)

/-- R152, which the spec derives: the groups through the wide-integer unit. -/
def Obligations.EncGroupsByShifts : Prop :=
  ∀ x : Wide,
    (∀ i, i ≤ 24 → encGroup x.value i = (wideShr x (123 - 5 * i)).lo.setWidth 5) ∧
    encGroup x.value 25 = (wideShl x 2).lo.setWidth 5

/-- R140: DEC_TABLE: the rows as listed, letters in both cases, and no other code; 60 codes are
valid. -/
def Obligations.DecTableAsListed : Prop :=
  (∀ (b : Byte) (v : BitVec 5), decTable b = some v ↔
    ∃ row ∈ [(0x30, 0), (0x31, 1), (0x32, 2), (0x33, 3), (0x34, 4), (0x35, 5), (0x36, 6), (0x37, 7)] ++
        [(0x38, 8), (0x39, 9), (0x41, 10), (0x42, 11), (0x43, 12), (0x44, 13), (0x45, 14)] ++
        [(0x46, 15), (0x47, 16), (0x48, 17), (0x49, 1), (0x4A, 18), (0x4B, 19), (0x4C, 1)] ++
        [(0x4D, 20), (0x4E, 21), (0x4F, 0), (0x50, 22), (0x51, 23), (0x52, 24), (0x53, 25)] ++
        [(0x54, 26), (0x56, 27), (0x57, 28), (0x58, 29), (0x59, 30), (0x5A, 31)],
      v.toNat = row.2 ∧ (b.toNat = row.1 ∨ (0x41 ≤ row.1 ∧ b.toNat = row.1 + 0x20))) ∧
  (List.range 256).countP (fun n => (decTable (BitVec.ofNat 8 n)).isSome) = 60

/-- R145: every length but 25 and 26 fails with LENGTH; nothing but STATUS is written and no byte of T
is read. -/
def Obligations.DecLengthError : Prop :=
  ∀ (rd : Reg) (s : State), s.tlen.toNat ≠ 25 → s.tlen.toNat ≠ 26 →
    ∃ t, exec (.dec rd) s = .next t ∧ t.Failed 1 1 0 ∧ StatusOnly s t

/-- R146: of a written text, the first invalid character fails with CHAR at its index; `U` and `u` are
invalid. -/
def Obligations.DecCharError : Prop :=
  decTable 0x55 = none ∧ decTable 0x75 = none ∧
  ∀ (rd : Reg) (s : State) (k : Fin 32), (s.tlen.toNat = 25 ∨ s.tlen.toNat = 26) →
    s.textWritten s.tlen.toNat = true → k.val < s.tlen.toNat → FirstInvalidAt s k →
    ∃ t, exec (.dec rd) s = .next t ∧ t.Failed 1 2 (BitVec.ofNat 5 k.val) ∧ StatusOnly s t

/-- R147: strict mode rejects a 26-character text whose two discarded bits are not both 0 and no other
text of valid characters (the permissive letters and lower case are valid); permissive mode rejects
none, and no mode rejects 25 characters. -/
def Obligations.DecStrictMode : Prop :=
  ∀ (rd : Reg) (s : State) (ds : List (BitVec 5)), TextDigits s s.tlen.toNat ds →
    (s.tlen.toNat = 26 → s.strict = 1 → radix32 ds % 4 ≠ 0 →
      ∃ t, exec (.dec rd) s = .next t ∧ t.Failed 1 3 0 ∧ StatusOnly s t) ∧
    (s.tlen.toNat = 26 → s.strict = 1 → radix32 ds % 4 = 0 →
      ∃ t, exec (.dec rd) s = .next t ∧ Completed s t) ∧
    (s.tlen.toNat = 26 → s.strict = 0 → ∃ t, exec (.dec rd) s = .next t ∧ Completed s t) ∧
    (s.tlen.toNat = 25 → ∃ t, exec (.dec rd) s = .next t ∧ Completed s t)

/-- R142: the value DEC writes, from the 130 or 125 bits its characters accumulate to, with DEC's
frame: only W[rd], its marks, STATUS and the pending command differ. -/
def Obligations.DecResult : Prop :=
  ∀ (rd : Reg) (s : State) (ds : List (BitVec 5)), TextDigits s s.tlen.toNat ds →
    (s.tlen.toNat = 25 ∨ s.tlen.toNat = 26) →
    (s.strict = 1 → s.tlen.toNat = 26 → radix32 ds % 4 = 0) →
    (encode (.dec rd)).toNat = fieldSum 0x11 rd 0 0 0 ∧
    ∃ t, exec (.dec rd) s = .next t ∧
      (s.tlen.toNat = 26 → (t.wide rd).value.toNat = radix32 ds / 4) ∧
      (s.tlen.toNat = 25 → (t.wide rd).value.toNat = radix32 ds) ∧
      t.wideWritten rd = true ∧ WideFrame rd s t ∧ Completed s t

/-- R144: of a written text (a wrong length reads none, R234), DEC's outcomes are exactly success and
the three causes, the length reported before the lowest illegal character and that before the pad. -/
def Obligations.DecErrorsExactly : Prop :=
  ∀ (rd : Reg) (s : State),
    ((s.tlen.toNat = 25 ∨ s.tlen.toNat = 26) → s.textWritten s.tlen.toNat = true) →
    ∃ t, exec (.dec rd) s = .next t ∧
      (t.status = ⟨1, 1, 0⟩ ↔ s.tlen.toNat ≠ 25 ∧ s.tlen.toNat ≠ 26) ∧
      (∀ k : Fin 32, t.status = ⟨1, 2, BitVec.ofNat 5 k.val⟩ ↔
        (s.tlen.toNat = 25 ∨ s.tlen.toNat = 26) ∧ k.val < s.tlen.toNat ∧ FirstInvalidAt s k) ∧
      (t.status = ⟨1, 3, 0⟩ ↔
        s.tlen.toNat = 26 ∧ s.strict = 1 ∧ ∃ ds, TextDigits s 26 ds ∧ radix32 ds % 4 ≠ 0) ∧
      (t.status = Status.ok ∨ t.status = ⟨1, 1, 0⟩ ∨
        (∃ k : Fin 32, t.status = ⟨1, 2, BitVec.ofNat 5 k.val⟩) ∨ t.status = ⟨1, 3, 0⟩)

/-- R153, which the spec derives: ENC then DEC gives the value of a written register back, in both
modes. -/
def Obligations.EncDecRoundTrip : Prop :=
  ∀ (rs rd : Reg) (s : State), s.wideWritten rs = true →
    ∃ t u, exec (.enc rs) s = .next t ∧ exec (.dec rd) t = .next u ∧
      u.wide rd = s.wide rs ∧ u.Succeeded ∧ u.unwrittenRead = s.unwrittenRead

/-- R154, which the spec derives: DEC then ENC gives the canonical form: each character's symbol, the
last with its two low bits cleared. -/
def Obligations.DecEncCanonical : Prop :=
  ∀ (rd : Reg) (s : State) (ds : List (BitVec 5)), s.tlen.toNat = 26 → TextDigits s 26 ds →
    (s.strict = 1 → radix32 ds % 4 = 0) →
    ∃ t u, exec (.dec rd) s = .next t ∧ exec (.enc rd) t = .next u ∧
      (∀ k : Fin 32, k.val < 25 → some u.t[k] = ds[k.val]?.map encTable) ∧
      some u.t[25] = ds[25]?.map (fun d => encTable (d &&& 0x1C))

/-- R150, which the spec derives: the 25-character path is the chain of SHL by 5 and ORI. -/
def Obligations.ShortDecodeIsShiftChain : Prop :=
  ∀ ds : List (BitVec 5), ds.length = 25 →
    (ds.foldl (fun acc d => wideOr (wideShl acc 5) (smallImmediate (d.setWidth 16))) ⟨0, 0⟩).value =
      decodedValue 25 (accumulate ds)

/-- R136, which the spec derives: text order is value order. -/
def Obligations.TextOrderIsValueOrder : Prop :=
  ∀ v1 v2 : BitVec 128, v1 < v2 ↔ encodeText v1 < encodeText v2

/-! ## Comparator and hash (42_compare_hash.md) -/

/-- R170: the first differing byte decides, unsigned, and this is the unsigned integer order. -/
def Obligations.CompareIsUnsigned : Prop :=
  ∀ x y : Wide,
    (∀ j, j < 16 → (∀ i, i < j → idByte x.value i = idByte y.value i) →
      (idByte x.value j < idByte y.value j → compareWide x y = .lt) ∧
      (idByte y.value j < idByte x.value j → compareWide x y = .gt)) ∧
    ((∀ i, i < 16 → idByte x.value i = idByte y.value i) → compareWide x y = .eq) ∧
    compareWide x y = compare x.value.toNat y.value.toNat

/-- R171: CMP, of written sources, with its frame: only R, its mark, STATUS and the pending command
differ. -/
def Obligations.CmpResult : Prop :=
  ∀ (rs1 rs2 : Reg) (s : State),
    (encode (.cmp rs1 rs2)).toNat = fieldSum 0x18 0 rs1 rs2 0 ∧
    (s.wideWritten rs1 = true → s.wideWritten rs2 = true →
      ∃ t, exec (.cmp rs1 rs2) s = .next t ∧
        ((s.wide rs1).value < (s.wide rs2).value → t.r = 0xFFFFFFFF) ∧
        ((s.wide rs1).value = (s.wide rs2).value → t.r = 0x00000000) ∧
        ((s.wide rs2).value < (s.wide rs1).value → t.r = 0x00000001) ∧
        t.rWritten = true ∧ ResultFrame s t ∧ Completed s t)

/-- R173, which the spec derives: the comparison is a strict total order. -/
def Obligations.CompareStrictTotalOrder : Prop :=
  ∀ x y z : Wide, compareWide x x = .eq ∧ compareWide x y = (compareWide y x).swap ∧
    (compareWide x y = .lt → compareWide y z = .lt → compareWide x z = .lt) ∧
    (compareWide x y = .eq → x = y)

/-- R174, which the spec derives: the comparison is that of the encoded texts. -/
def Obligations.CompareIsTextOrder : Prop :=
  ∀ x y : Wide,
    compareWide x y = compareBytes (encodeText x.value) (encodeText y.value)

/-- R175, R177 (which the spec derives): the hash in closed form, for every initial value. -/
def Obligations.HashClosedForm : Prop :=
  ∀ (init : Word) (v : BitVec 128),
    (hashFrom init v).toNat =
      (init.toNat * 31 ^ 16 + ∑ j ∈ Finset.range 16, (idByte v j).toNat * 31 ^ (15 - j)) % 2 ^ 32

/-- R176: HASH, of a written source, from the parameter HASH_INIT, with its frame: only R, its mark,
STATUS and the pending command differ. -/
def Obligations.HashResult : Prop :=
  ∀ (rs1 : Reg) (s : State),
    (encode (.hash rs1)).toNat = fieldSum 0x19 0 rs1 0 0 ∧
    (s.wideWritten rs1 = true →
      ∃ t, exec (.hash rs1) s = .next t ∧
        t.r = (List.range 16).foldl (fun h j => h * 31 + (idByte (s.wide rs1).value j).setWidth 32)
          Config.hashInit ∧
        t.rWritten = true ∧ ResultFrame s t ∧ Completed s t)

/-! ## The register window (20_memory.md, 10_state.md) -/

/-- R55: the offsets of the single registers and of the reserved words. -/
def Obligations.RegisterMap : Prop :=
  windowReg 0x040 = .result ∧ windowReg 0x044 = .tlen ∧ windowReg 0x048 = .config ∧
  windowReg 0x04C = .status ∧ windowReg 0x050 = .cmd ∧
  ∀ off, off % 4 = 0 → (0x054 ≤ off ∧ off ≤ 0x07C ∨ 0x0A0 ≤ off ∧ off ≤ 0x0FC) →
    windowReg off = .reserved

/-- R56: where each word of a wide register lies, what it holds, and where identifier byte j sits. -/
def Obligations.WideWordPacking : Prop :=
  ∀ (i k : Fin 4) (x : Wide),
    windowReg (0x10 * i.val + 4 * k.val) = .wide i k ∧
    wideWord x k = x.value.extractLsb' (32 * k.val) 32 ∧
    ∀ j, j < 16 → j / 4 = 3 - k.val →
      idByte x.value j = (wideWord x k).extractLsb' (24 - 8 * (j % 4)) 8

/-- R57: where each word of T lies, and its four characters, the first in the low byte. -/
def Obligations.TextWordPacking : Prop :=
  ∀ (m : Fin 8) (t : Vector Byte 32) (k : Fin 32),
    windowReg (0x080 + 4 * m.val) = .text m ∧
    (k.val / 4 = m.val → (textWord t m).extractLsb' (8 * (k.val % 4)) 8 = t[k])

/-- R58: what a host write does while BUSY = 0, word by word of the window. -/
def Obligations.HostWriteEffects : Prop :=
  ∀ (s : State) (off : Nat) (v : Word) (rest : List HostOp), s.pending = none →
    s.host = writeOp off v :: rest →
    (∀ i k : Fin 4, off = 0x10 * i.val + 4 * k.val →
      ∃ t, step s = .next t ∧
        (∀ j, wideWord (t.wide i) j = if j = k then v else wideWord (s.wide i) j) ∧
        (∀ j : Fin 4, t.wWritten[i][j] = if j = k then true else s.wWritten[i][j]) ∧
        (∀ r, r ≠ i → SameWide r s t) ∧
        t = { s with w := t.w, wWritten := t.wWritten, host := rest }) ∧
    (∀ m : Fin 8, off = 0x080 + 4 * m.val →
      ∃ t, step s = .next t ∧
        (∀ j : Fin 32, t.t[j] =
          if j.val / 4 = m.val then v.extractLsb' (8 * (j.val % 4)) 8 else s.t[j]) ∧
        (∀ j : Fin 32, t.tWritten[j] = if j.val / 4 = m.val then true else s.tWritten[j]) ∧
        t = { s with t := t.t, tWritten := t.tWritten, host := rest }) ∧
    (off = 0x044 → step s = .next { s with tlen := v.extractLsb' 0 8, host := rest }) ∧
    (off = 0x048 → step s = .next { s with strict := v.extractLsb' 0 1, host := rest }) ∧
    (off = 0x040 ∨ off = 0x04C → step s = .next { s with host := rest }) ∧
    (off = 0x050 → step s = .next { s with pending := some ⟨v, Config.lat v⟩, host := rest }) ∧
    (off % 4 = 0 → (0x054 ≤ off ∧ off ≤ 0x07C ∨ 0x0A0 ≤ off ∧ off ≤ 0x0FC) →
      step s = .next { s with host := rest })

/-- R59: what a host read of written state returns while BUSY = 0, word by word of the window; nothing
else changes. -/
def Obligations.HostReadReturns : Prop :=
  ∀ (s : State) (off : Nat) (rest : List HostOp), s.pending = none → s.host = readOp off :: rest →
    (∀ i k : Fin 4, off = 0x10 * i.val + 4 * k.val → s.wWritten[i][k] = true →
      step s = .next { s with
        reads := (s.wide i).value.extractLsb' (32 * k.val) 32 :: s.reads, host := rest }) ∧
    (∀ m : Fin 8, off = 0x080 + 4 * m.val →
      (∀ j : Fin 32, j.val / 4 = m.val → s.tWritten[j] = true) →
      step s = .next { s with reads := textWord s.t m :: s.reads, host := rest }) ∧
    (off = 0x040 → s.rWritten = true → step s = .next { s with reads := s.r :: s.reads, host := rest }) ∧
    (off = 0x044 →
      step s = .next { s with reads := BitVec.ofNat 32 s.tlen.toNat :: s.reads, host := rest }) ∧
    (off = 0x048 →
      step s = .next { s with reads := BitVec.ofNat 32 s.strict.toNat :: s.reads, host := rest }) ∧
    (off = 0x04C →
      step s = .next { s with reads := s.status.word false :: s.reads, host := rest }) ∧
    (off = 0x050 → step s = .next { s with reads := 0 :: s.reads, host := rest }) ∧
    (off % 4 = 0 → (0x054 ≤ off ∧ off ≤ 0x07C ∨ 0x0A0 ≤ off ∧ off ≤ 0x0FC) →
      step s = .next { s with reads := 0 :: s.reads, host := rest })

/-- R65: a read returns the value of the last write to the same word of W or T. -/
def Obligations.ReadAfterWrite : Prop :=
  ∀ (s : State) (off : Nat) (v : Word) (rest : List HostOp), s.pending = none →
    s.host = writeOp off v :: readOp off :: rest → off % 4 = 0 →
    (off < 0x040 ∨ 0x080 ≤ off ∧ off < 0x0A0) →
    ∃ t, core.run 2 s = .next t ∧ t.reads = v :: s.reads ∧ t.unwrittenRead = s.unwrittenRead

/-- R54, R210: an access of another width, at a misaligned offset or outside the window is
HostAccessFault; stated for an idle unit, since the order of the two faults while busy is the model's
choice (log 7). -/
def Obligations.IllFormedAccessFaults : Prop :=
  ∀ (s : State) (addr nbytes : Nat) (v : Word) (rest : List HostOp), s.pending = none →
    ¬ (nbytes = 4 ∧ ∃ off, off < 256 ∧ off % 4 = 0 ∧ addr = Config.base + off) →
    (s.host = .read addr nbytes :: rest → step s = .fault .hostAccessFault) ∧
    (s.host = .write addr nbytes v :: rest → step s = .fault .hostAccessFault)

/-- R241, R210: while BUSY = 1, a well-formed host access other than a STATUS read is HostHazard (an
ill-formed one is HostAccessFault by the model's choice, log 7). -/
def Obligations.BusyAccessIsHazard : Prop :=
  ∀ (s : State) (c : Word) (n off : Nat) (v : Word) (rest : List HostOp),
    s.pending = some ⟨c, n + 1⟩ → off < 256 → off % 4 = 0 →
    (s.host = writeOp off v :: rest → step s = .fault .hostHazard) ∧
    (s.host = readOp off :: rest → off ≠ 0x04C → step s = .fault .hostHazard)

/-- R242: a STATUS read while BUSY = 1 returns BUSY = 1 and the previous outcome; a completing command
shows its outcome together with BUSY = 0. That the read also passes one step of the latency is the
model's choice (log 4). -/
def Obligations.BusyStatusRead : Prop :=
  (∀ (s : State) (c : Word) (n : Nat) (rest : List HostOp),
    s.pending = some ⟨c, n + 1⟩ → s.host = readOp 0x04C :: rest →
    ∃ w : Word, w.toNat = 1 + 16 * s.status.err.toNat + 256 * s.status.detail.toNat +
        65536 * s.status.index.toNat ∧
      step s = .next { s with pending := some ⟨c, n⟩, reads := w :: s.reads, host := rest }) ∧
  ∀ (i : Instr) (s t : State), exec i s = .next t →
    t.statusWord.toNat =
      16 * t.status.err.toNat + 256 * t.status.detail.toNat + 65536 * t.status.index.toNat

/-- R31, R60: the places of STATUS's fields; the reserved bits are 0. -/
def Obligations.StatusWordLayout : Prop :=
  ∀ s : State, s.statusWord.toNat =
    (if s.pending = none then 0 else 1) + 16 * s.status.err.toNat + 256 * s.status.detail.toNat +
      65536 * s.status.index.toNat

/-! ## Reset (70_reset_and_hazards.md) -/

/-- R230: what the spec gives for reset; the content of W, T and R is not stated here (log 1). -/
def Obligations.ResetValues : Prop :=
  State.reset.tlen = 0 ∧ State.reset.strict = 0 ∧ State.reset.statusWord = 0 ∧
  State.reset.pending = none ∧ State.reset.rWritten = false ∧
  (∀ i k : Fin 4, State.reset.wWritten[i][k] = false) ∧
  ∀ k : Fin 32, State.reset.tWritten[k] = false

/-- R230, R232: a reset, of an idle unit or with a command pending, leaves the reset state (the content
of W, T and R is not stated: log 1), and a pending command is discarded. That the rest of the host's
list, what it has read and the record of UnwrittenRead stay is the model's choice (log 11). -/
def Obligations.ResetDiscardsPending : Prop :=
  ∀ (s : State) (rest : List HostOp),
    (s.pending = none ∨ ∃ c n, s.pending = some ⟨c, n + 1⟩) → s.host = .reset :: rest →
    ∃ t, step s = .next t ∧ t.pending = none ∧ t.tlen = 0 ∧ t.strict = 0 ∧ t.statusWord = 0 ∧
      t.rWritten = false ∧ (∀ i k : Fin 4, t.wWritten[i][k] = false) ∧
      (∀ k : Fin 32, t.tWritten[k] = false) ∧ t.reads = s.reads ∧ t.host = rest ∧
      t.unwrittenRead = s.unwrittenRead

/-! ## Invariants and whole-machine rules -/

/-- 60_exceptions.md R203: every step keeps STATUS at an outcome the spec lists as produced. -/
def Obligations.StepKeepsStatusLegal : Prop :=
  ∀ s t : State, s.status.Legal → step s = .next t → t.status.Legal

/-- STATUS is a listed outcome after reset. -/
def Obligations.ResetStatusLegal : Prop := State.reset.status.Legal

/-- 60_exceptions.md R200, R204, R206: a command that ends with an error has written STATUS only. (One
that used unwritten state ends with neither an error nor a result: UnwrittenUseRecorded.) -/
def Obligations.ErrorsArePrecise : Prop :=
  ∀ (i : Instr) (s t : State), exec i s = .next t → t.freeUses = s.freeUses →
    t.status ≠ Status.ok → StatusOnly s t

/-- 10_state.md R20, R30: CONFIG changes only by a host write to CONFIG or by reset; no command writes
it. -/
def Obligations.ConfigChangesOnlyByHost : Prop :=
  ∀ s t : State, step s = .next t → t.strict ≠ s.strict → s.HostWrites 0x048 ∨ s.HostResets

/-- 10_state.md R26: R changes only when CMP or HASH runs, or by reset; never by a host write. -/
def Obligations.ResultChangesOnlyByCmpHash : Prop :=
  ∀ s t : State, step s = .next t → t.r ≠ s.r →
    (∃ a b, s.Runs (.cmp a b)) ∨ (∃ a, s.Runs (.hash a)) ∨ s.HostResets

/-- 10_state.md R23: a wide register changes only when a command that names it as rd completes without
error, when the host writes one of its words, or by reset. -/
def Obligations.WideChangesOnlyByDestination : Prop :=
  ∀ (s t : State) (r : Reg), step s = .next t → t.wide r ≠ s.wide r →
    (∃ i, s.Runs i ∧ destinationOf i = some r ∧ t.Succeeded) ∨
    (∃ k : Fin 4, s.HostWrites (0x10 * r.val + 4 * k.val)) ∨ s.HostResets

/-- 10_state.md R24, R25: T and TLEN change only when ENC runs, when the host writes a word of T or
TLEN, or by reset. -/
def Obligations.TextChangesOnlyByEnc : Prop :=
  ∀ s t : State, step s = .next t → (t.t ≠ s.t ∨ t.tlen ≠ s.tlen) →
    (∃ a, s.Runs (.enc a)) ∨ (∃ m : Fin 8, s.HostWrites (0x080 + 4 * m.val)) ∨
    s.HostWrites 0x044 ∨ s.HostResets

/-- 10_state.md R34: no step clears a written mark but a reset and a command that used unwritten state
(whose destination it leaves unspecified: 70_reset_and_hazards.md R231, the model's choice of log 2),
and none clears the record of UnwrittenRead (93_implementation_defined.md section 1; log 2). -/
def Obligations.MarksOnlyGrow : Prop :=
  ∀ s t : State, step s = .next t →
    (s.unwrittenRead = true → t.unwrittenRead = true) ∧ s.freeUses ≤ t.freeUses ∧
    (¬ s.HostResets → (t.freeUses = s.freeUses ∨ ¬ ∃ i, s.Runs i) →
      (∀ i k : Fin 4, s.wWritten[i][k] = true → t.wWritten[i][k] = true) ∧
      (∀ k : Fin 32, s.tWritten[k] = true → t.tWritten[k] = true) ∧
      (s.rWritten = true → t.rWritten = true))

/-- 10_state.md R34, 70_reset_and_hazards.md R231: every use of unwritten state is recorded, by a
command and by a host read. A command that reads an unwritten operand (a source register whole, or for
DEC T[0..TLEN-1] when TLEN is 25 or 26) produces no result: W, T, TLEN, R and STATUS are not written,
and the written marks of its destination are clear after it; of written operands it records nothing. A
host read records it for the word it reads; nothing else changes, and what is marked in the word still
reads as its content. That the model records and goes on, unmarks the destination and gives the host a
free value is its own choice (log 2, log 18), as is taking a source register whole (log 8). -/
def Obligations.UnwrittenUseRecorded : Prop :=
  ∀ (rd a b : Reg) (n : Nat) (k : BitVec 16) (s : State),
    (∀ i ∈ [Instr.make rd a b, .orx rd a b],
      ∃ t, exec i s = .next t ∧ WideFrame rd s t ∧
        (∀ j : Fin 4, t.wWritten[rd][j] = (s.wideWritten a && s.wideWritten b)) ∧
        if s.wideWritten a && s.wideWritten b then Completed s t else NoResult s t) ∧
    (∀ i ∈ [Instr.shl rd a n, .shr rd a n, .ori rd a k, .hi rd a, .lo rd a],
      ∃ t, exec i s = .next t ∧ WideFrame rd s t ∧
        (∀ j : Fin 4, t.wWritten[rd][j] = s.wideWritten a) ∧
        if s.wideWritten a then Completed s t else NoResult s t) ∧
    (∃ t, exec (.enc a) s = .next t ∧ EncFrame s t ∧
      (∀ j : Fin 32, j.val < 26 → t.tWritten[j] = s.wideWritten a) ∧
      if s.wideWritten a then Completed s t else NoResult s t) ∧
    (∃ t, exec (.cmp a b) s = .next t ∧ ResultFrame s t ∧
      t.rWritten = (s.wideWritten a && s.wideWritten b) ∧
      if s.wideWritten a && s.wideWritten b then Completed s t else NoResult s t) ∧
    (∃ t, exec (.hash a) s = .next t ∧ ResultFrame s t ∧ t.rWritten = s.wideWritten a ∧
      if s.wideWritten a then Completed s t else NoResult s t) ∧
    (∃ t, exec (.dec rd) s = .next t ∧ t.pending = none ∧ WideFrame rd s t ∧
      ((s.tlen.toNat = 25 ∨ s.tlen.toNat = 26) →
        (∃ j : Fin 32, j.val < s.tlen.toNat ∧ s.tWritten[j] = false) →
          NoResult s t ∧ ∀ j : Fin 4, t.wWritten[rd][j] = false) ∧
      (((s.tlen.toNat = 25 ∨ s.tlen.toNat = 26) →
          ∀ j : Fin 32, j.val < s.tlen.toNat → s.tWritten[j] = true) →
        t.unwrittenRead = s.unwrittenRead ∧ t.freeUses = s.freeUses)) ∧
    ∀ (off : Nat) (rest : List HostOp), s.pending = none → s.host = readOp off :: rest →
      (∀ i j : Fin 4, off = 0x10 * i.val + 4 * j.val → s.wWritten[i][j] = false →
        ∃ v, step s = .next { s with
          unwrittenRead := true, freeUses := s.freeUses + 1, reads := v :: s.reads, host := rest }) ∧
      (off = 0x040 → s.rWritten = false →
        ∃ v, step s = .next { s with
          unwrittenRead := true, freeUses := s.freeUses + 1, reads := v :: s.reads, host := rest }) ∧
      (∀ m : Fin 8, off = 0x080 + 4 * m.val → (∃ j : Fin 32, j.val / 4 = m.val ∧ s.tWritten[j] = false) →
        ∃ v : Word, (∀ j : Fin 32, j.val / 4 = m.val → s.tWritten[j] = true →
            v.extractLsb' (8 * (j.val % 4)) 8 = s.t[j]) ∧
          step s = .next { s with
            unwrittenRead := true, freeUses := s.freeUses + 1, reads := v :: s.reads, host := rest })

/-- 10_state.md R34, 70_reset_and_hazards.md R231: what was never written can not be observed. Two
states that agree on everything written take steps that agree on everything written, and the same
faults, whatever the free values are. So the zeros the model chose for reset (log 1) reach no run
(log 18). -/
def Obligations.UnwrittenNeverObserved : Prop :=
  ∀ a b : State, AgreeOnWritten a b →
    (∀ a', step a = .next a' → ∃ b', step b = .next b' ∧ AgreeOnWritten a' b') ∧
    ∀ f, step a = .fault f → step b = .fault f
end

