-- ==== Sys2Proof/Laws/State.lean ====
section
/-! SUPPORT. One lemma per field per update of State, so that no proof unfolds a record update, and the
read-after-write laws of the named operations. -/

namespace Sys2Proof.Machine

/-! ### `State.writeWide` -/

@[simp] theorem State.writeWide_w (s : State) (r : Reg) (x : Wide) :
    (s.writeWide r x).w = s.w.set r x := rfl

@[simp] theorem State.writeWide_wWritten (s : State) (r : Reg) (x : Wide) :
    (s.writeWide r x).wWritten = s.wWritten.set r (Vector.replicate 4 true) := rfl

@[simp] theorem State.writeWide_t (s : State) (r : Reg) (x : Wide) :
    (s.writeWide r x).t = s.t := rfl

@[simp] theorem State.writeWide_tWritten (s : State) (r : Reg) (x : Wide) :
    (s.writeWide r x).tWritten = s.tWritten := rfl

@[simp] theorem State.writeWide_tlen (s : State) (r : Reg) (x : Wide) :
    (s.writeWide r x).tlen = s.tlen := rfl

@[simp] theorem State.writeWide_r (s : State) (r : Reg) (x : Wide) :
    (s.writeWide r x).r = s.r := rfl

@[simp] theorem State.writeWide_rWritten (s : State) (r : Reg) (x : Wide) :
    (s.writeWide r x).rWritten = s.rWritten := rfl

@[simp] theorem State.writeWide_strict (s : State) (r : Reg) (x : Wide) :
    (s.writeWide r x).strict = s.strict := rfl

@[simp] theorem State.writeWide_status (s : State) (r : Reg) (x : Wide) :
    (s.writeWide r x).status = s.status := rfl

@[simp] theorem State.writeWide_pending (s : State) (r : Reg) (x : Wide) :
    (s.writeWide r x).pending = s.pending := rfl

@[simp] theorem State.writeWide_unwrittenRead (s : State) (r : Reg) (x : Wide) :
    (s.writeWide r x).unwrittenRead = s.unwrittenRead := rfl

@[simp] theorem State.writeWide_freeUses (s : State) (r : Reg) (x : Wide) :
    (s.writeWide r x).freeUses = s.freeUses := rfl

@[simp] theorem State.writeWide_host (s : State) (r : Reg) (x : Wide) :
    (s.writeWide r x).host = s.host := rfl

@[simp] theorem State.writeWide_reads (s : State) (r : Reg) (x : Wide) :
    (s.writeWide r x).reads = s.reads := rfl

/-! ### `State.writeText` -/

@[simp] theorem State.writeText_w (s : State) (cs : List Byte) :
    (s.writeText cs).w = s.w := rfl

@[simp] theorem State.writeText_wWritten (s : State) (cs : List Byte) :
    (s.writeText cs).wWritten = s.wWritten := rfl

@[simp] theorem State.writeText_r (s : State) (cs : List Byte) :
    (s.writeText cs).r = s.r := rfl

@[simp] theorem State.writeText_rWritten (s : State) (cs : List Byte) :
    (s.writeText cs).rWritten = s.rWritten := rfl

@[simp] theorem State.writeText_strict (s : State) (cs : List Byte) :
    (s.writeText cs).strict = s.strict := rfl

@[simp] theorem State.writeText_status (s : State) (cs : List Byte) :
    (s.writeText cs).status = s.status := rfl

@[simp] theorem State.writeText_pending (s : State) (cs : List Byte) :
    (s.writeText cs).pending = s.pending := rfl

@[simp] theorem State.writeText_unwrittenRead (s : State) (cs : List Byte) :
    (s.writeText cs).unwrittenRead = s.unwrittenRead := rfl

@[simp] theorem State.writeText_freeUses (s : State) (cs : List Byte) :
    (s.writeText cs).freeUses = s.freeUses := rfl

@[simp] theorem State.writeText_host (s : State) (cs : List Byte) :
    (s.writeText cs).host = s.host := rfl

@[simp] theorem State.writeText_reads (s : State) (cs : List Byte) :
    (s.writeText cs).reads = s.reads := rfl

/-! ### `State.writeResult` -/

@[simp] theorem State.writeResult_w (s : State) (v : Word) :
    (s.writeResult v).w = s.w := rfl

@[simp] theorem State.writeResult_wWritten (s : State) (v : Word) :
    (s.writeResult v).wWritten = s.wWritten := rfl

@[simp] theorem State.writeResult_t (s : State) (v : Word) :
    (s.writeResult v).t = s.t := rfl

@[simp] theorem State.writeResult_tWritten (s : State) (v : Word) :
    (s.writeResult v).tWritten = s.tWritten := rfl

@[simp] theorem State.writeResult_tlen (s : State) (v : Word) :
    (s.writeResult v).tlen = s.tlen := rfl

@[simp] theorem State.writeResult_r (s : State) (v : Word) :
    (s.writeResult v).r = v := rfl

@[simp] theorem State.writeResult_rWritten (s : State) (v : Word) :
    (s.writeResult v).rWritten = true := rfl

@[simp] theorem State.writeResult_strict (s : State) (v : Word) :
    (s.writeResult v).strict = s.strict := rfl

@[simp] theorem State.writeResult_status (s : State) (v : Word) :
    (s.writeResult v).status = s.status := rfl

@[simp] theorem State.writeResult_pending (s : State) (v : Word) :
    (s.writeResult v).pending = s.pending := rfl

@[simp] theorem State.writeResult_unwrittenRead (s : State) (v : Word) :
    (s.writeResult v).unwrittenRead = s.unwrittenRead := rfl

@[simp] theorem State.writeResult_freeUses (s : State) (v : Word) :
    (s.writeResult v).freeUses = s.freeUses := rfl

@[simp] theorem State.writeResult_host (s : State) (v : Word) :
    (s.writeResult v).host = s.host := rfl

@[simp] theorem State.writeResult_reads (s : State) (v : Word) :
    (s.writeResult v).reads = s.reads := rfl

/-! ### `State.noteUse` -/

@[simp] theorem State.noteUse_w (s : State) (b : Bool) :
    (s.noteUse b).w = s.w := rfl

@[simp] theorem State.noteUse_wWritten (s : State) (b : Bool) :
    (s.noteUse b).wWritten = s.wWritten := rfl

@[simp] theorem State.noteUse_t (s : State) (b : Bool) :
    (s.noteUse b).t = s.t := rfl

@[simp] theorem State.noteUse_tWritten (s : State) (b : Bool) :
    (s.noteUse b).tWritten = s.tWritten := rfl

@[simp] theorem State.noteUse_tlen (s : State) (b : Bool) :
    (s.noteUse b).tlen = s.tlen := rfl

@[simp] theorem State.noteUse_r (s : State) (b : Bool) :
    (s.noteUse b).r = s.r := rfl

@[simp] theorem State.noteUse_rWritten (s : State) (b : Bool) :
    (s.noteUse b).rWritten = s.rWritten := rfl

@[simp] theorem State.noteUse_strict (s : State) (b : Bool) :
    (s.noteUse b).strict = s.strict := rfl

@[simp] theorem State.noteUse_status (s : State) (b : Bool) :
    (s.noteUse b).status = s.status := rfl

@[simp] theorem State.noteUse_pending (s : State) (b : Bool) :
    (s.noteUse b).pending = s.pending := rfl

@[simp] theorem State.noteUse_unwrittenRead (s : State) (b : Bool) :
    (s.noteUse b).unwrittenRead = (s.unwrittenRead || !b) := rfl

@[simp] theorem State.noteUse_freeUses (s : State) (b : Bool) :
    (s.noteUse b).freeUses = s.freeUses + (!b).toNat := rfl

@[simp] theorem State.noteUse_host (s : State) (b : Bool) :
    (s.noteUse b).host = s.host := rfl

@[simp] theorem State.noteUse_reads (s : State) (b : Bool) :
    (s.noteUse b).reads = s.reads := rfl

/-! ### `State.loseWide` -/

@[simp] theorem State.loseWide_w (s : State) (r : Reg) :
    (s.loseWide r).w = s.w := rfl

@[simp] theorem State.loseWide_wWritten (s : State) (r : Reg) :
    (s.loseWide r).wWritten = s.wWritten.set r (Vector.replicate 4 false) := rfl

@[simp] theorem State.loseWide_t (s : State) (r : Reg) :
    (s.loseWide r).t = s.t := rfl

@[simp] theorem State.loseWide_tWritten (s : State) (r : Reg) :
    (s.loseWide r).tWritten = s.tWritten := rfl

@[simp] theorem State.loseWide_tlen (s : State) (r : Reg) :
    (s.loseWide r).tlen = s.tlen := rfl

@[simp] theorem State.loseWide_r (s : State) (r : Reg) :
    (s.loseWide r).r = s.r := rfl

@[simp] theorem State.loseWide_rWritten (s : State) (r : Reg) :
    (s.loseWide r).rWritten = s.rWritten := rfl

@[simp] theorem State.loseWide_strict (s : State) (r : Reg) :
    (s.loseWide r).strict = s.strict := rfl

@[simp] theorem State.loseWide_status (s : State) (r : Reg) :
    (s.loseWide r).status = s.status := rfl

@[simp] theorem State.loseWide_pending (s : State) (r : Reg) :
    (s.loseWide r).pending = s.pending := rfl

@[simp] theorem State.loseWide_unwrittenRead (s : State) (r : Reg) :
    (s.loseWide r).unwrittenRead = s.unwrittenRead := rfl

@[simp] theorem State.loseWide_freeUses (s : State) (r : Reg) :
    (s.loseWide r).freeUses = s.freeUses := rfl

@[simp] theorem State.loseWide_host (s : State) (r : Reg) :
    (s.loseWide r).host = s.host := rfl

@[simp] theorem State.loseWide_reads (s : State) (r : Reg) :
    (s.loseWide r).reads = s.reads := rfl

/-! ### `State.loseText` -/

@[simp] theorem State.loseText_w (s : State) (len : Nat) :
    (s.loseText len).w = s.w := rfl

@[simp] theorem State.loseText_wWritten (s : State) (len : Nat) :
    (s.loseText len).wWritten = s.wWritten := rfl

@[simp] theorem State.loseText_t (s : State) (len : Nat) :
    (s.loseText len).t = s.t := rfl

@[simp] theorem State.loseText_tWritten (s : State) (len : Nat) :
    (s.loseText len).tWritten = overlayVector (List.replicate len false) s.tWritten := rfl

@[simp] theorem State.loseText_tlen (s : State) (len : Nat) :
    (s.loseText len).tlen = s.tlen := rfl

@[simp] theorem State.loseText_r (s : State) (len : Nat) :
    (s.loseText len).r = s.r := rfl

@[simp] theorem State.loseText_rWritten (s : State) (len : Nat) :
    (s.loseText len).rWritten = s.rWritten := rfl

@[simp] theorem State.loseText_strict (s : State) (len : Nat) :
    (s.loseText len).strict = s.strict := rfl

@[simp] theorem State.loseText_status (s : State) (len : Nat) :
    (s.loseText len).status = s.status := rfl

@[simp] theorem State.loseText_pending (s : State) (len : Nat) :
    (s.loseText len).pending = s.pending := rfl

@[simp] theorem State.loseText_unwrittenRead (s : State) (len : Nat) :
    (s.loseText len).unwrittenRead = s.unwrittenRead := rfl

@[simp] theorem State.loseText_freeUses (s : State) (len : Nat) :
    (s.loseText len).freeUses = s.freeUses := rfl

@[simp] theorem State.loseText_host (s : State) (len : Nat) :
    (s.loseText len).host = s.host := rfl

@[simp] theorem State.loseText_reads (s : State) (len : Nat) :
    (s.loseText len).reads = s.reads := rfl

/-! ### `State.loseResult` -/

@[simp] theorem State.loseResult_w (s : State) :
    s.loseResult.w = s.w := rfl

@[simp] theorem State.loseResult_wWritten (s : State) :
    s.loseResult.wWritten = s.wWritten := rfl

@[simp] theorem State.loseResult_t (s : State) :
    s.loseResult.t = s.t := rfl

@[simp] theorem State.loseResult_tWritten (s : State) :
    s.loseResult.tWritten = s.tWritten := rfl

@[simp] theorem State.loseResult_tlen (s : State) :
    s.loseResult.tlen = s.tlen := rfl

@[simp] theorem State.loseResult_r (s : State) :
    s.loseResult.r = s.r := rfl

@[simp] theorem State.loseResult_rWritten (s : State) :
    s.loseResult.rWritten = false := rfl

@[simp] theorem State.loseResult_strict (s : State) :
    s.loseResult.strict = s.strict := rfl

@[simp] theorem State.loseResult_status (s : State) :
    s.loseResult.status = s.status := rfl

@[simp] theorem State.loseResult_pending (s : State) :
    s.loseResult.pending = s.pending := rfl

@[simp] theorem State.loseResult_unwrittenRead (s : State) :
    s.loseResult.unwrittenRead = s.unwrittenRead := rfl

@[simp] theorem State.loseResult_freeUses (s : State) :
    s.loseResult.freeUses = s.freeUses := rfl

@[simp] theorem State.loseResult_host (s : State) :
    s.loseResult.host = s.host := rfl

@[simp] theorem State.loseResult_reads (s : State) :
    s.loseResult.reads = s.reads := rfl

/-! ### `State.abandon` -/

@[simp] theorem State.abandon_w (s : State) :
    s.abandon.w = s.w := rfl

@[simp] theorem State.abandon_wWritten (s : State) :
    s.abandon.wWritten = s.wWritten := rfl

@[simp] theorem State.abandon_t (s : State) :
    s.abandon.t = s.t := rfl

@[simp] theorem State.abandon_tWritten (s : State) :
    s.abandon.tWritten = s.tWritten := rfl

@[simp] theorem State.abandon_tlen (s : State) :
    s.abandon.tlen = s.tlen := rfl

@[simp] theorem State.abandon_r (s : State) :
    s.abandon.r = s.r := rfl

@[simp] theorem State.abandon_rWritten (s : State) :
    s.abandon.rWritten = s.rWritten := rfl

@[simp] theorem State.abandon_strict (s : State) :
    s.abandon.strict = s.strict := rfl

@[simp] theorem State.abandon_status (s : State) :
    s.abandon.status = s.status := rfl

@[simp] theorem State.abandon_pending (s : State) :
    s.abandon.pending = none := rfl

@[simp] theorem State.abandon_unwrittenRead (s : State) :
    s.abandon.unwrittenRead = true := by simp [State.abandon]

@[simp] theorem State.abandon_freeUses (s : State) :
    s.abandon.freeUses = s.freeUses + 1 := rfl

@[simp] theorem State.abandon_host (s : State) :
    s.abandon.host = s.host := rfl

@[simp] theorem State.abandon_reads (s : State) :
    s.abandon.reads = s.reads := rfl

/-! ### `State.complete` -/

@[simp] theorem State.complete_w (s : State) (st : Status) :
    (s.complete st).w = s.w := rfl

@[simp] theorem State.complete_wWritten (s : State) (st : Status) :
    (s.complete st).wWritten = s.wWritten := rfl

@[simp] theorem State.complete_t (s : State) (st : Status) :
    (s.complete st).t = s.t := rfl

@[simp] theorem State.complete_tWritten (s : State) (st : Status) :
    (s.complete st).tWritten = s.tWritten := rfl

@[simp] theorem State.complete_tlen (s : State) (st : Status) :
    (s.complete st).tlen = s.tlen := rfl

@[simp] theorem State.complete_r (s : State) (st : Status) :
    (s.complete st).r = s.r := rfl

@[simp] theorem State.complete_rWritten (s : State) (st : Status) :
    (s.complete st).rWritten = s.rWritten := rfl

@[simp] theorem State.complete_strict (s : State) (st : Status) :
    (s.complete st).strict = s.strict := rfl

@[simp] theorem State.complete_status (s : State) (st : Status) :
    (s.complete st).status = st := rfl

@[simp] theorem State.complete_pending (s : State) (st : Status) :
    (s.complete st).pending = none := rfl

@[simp] theorem State.complete_unwrittenRead (s : State) (st : Status) :
    (s.complete st).unwrittenRead = s.unwrittenRead := rfl

@[simp] theorem State.complete_freeUses (s : State) (st : Status) :
    (s.complete st).freeUses = s.freeUses := rfl

@[simp] theorem State.complete_host (s : State) (st : Status) :
    (s.complete st).host = s.host := rfl

@[simp] theorem State.complete_reads (s : State) (st : Status) :
    (s.complete st).reads = s.reads := rfl

/-! ### `State.succeed` -/

@[simp] theorem State.succeed_w (s : State) :
    s.succeed.w = s.w := rfl

@[simp] theorem State.succeed_wWritten (s : State) :
    s.succeed.wWritten = s.wWritten := rfl

@[simp] theorem State.succeed_t (s : State) :
    s.succeed.t = s.t := rfl

@[simp] theorem State.succeed_tWritten (s : State) :
    s.succeed.tWritten = s.tWritten := rfl

@[simp] theorem State.succeed_tlen (s : State) :
    s.succeed.tlen = s.tlen := rfl

@[simp] theorem State.succeed_r (s : State) :
    s.succeed.r = s.r := rfl

@[simp] theorem State.succeed_rWritten (s : State) :
    s.succeed.rWritten = s.rWritten := rfl

@[simp] theorem State.succeed_strict (s : State) :
    s.succeed.strict = s.strict := rfl

@[simp] theorem State.succeed_status (s : State) :
    s.succeed.status = Status.ok := rfl

@[simp] theorem State.succeed_pending (s : State) :
    s.succeed.pending = none := rfl

@[simp] theorem State.succeed_unwrittenRead (s : State) :
    s.succeed.unwrittenRead = s.unwrittenRead := rfl

@[simp] theorem State.succeed_freeUses (s : State) :
    s.succeed.freeUses = s.freeUses := rfl

@[simp] theorem State.succeed_host (s : State) :
    s.succeed.host = s.host := rfl

@[simp] theorem State.succeed_reads (s : State) :
    s.succeed.reads = s.reads := rfl

/-! ### `State.raise` -/

@[simp] theorem State.raise_w (s : State) (e : ErrorKind) (d : BitVec 4) (i : BitVec 5) :
    (s.raise e d i).w = s.w := rfl

@[simp] theorem State.raise_wWritten (s : State) (e : ErrorKind) (d : BitVec 4) (i : BitVec 5) :
    (s.raise e d i).wWritten = s.wWritten := rfl

@[simp] theorem State.raise_t (s : State) (e : ErrorKind) (d : BitVec 4) (i : BitVec 5) :
    (s.raise e d i).t = s.t := rfl

@[simp] theorem State.raise_tWritten (s : State) (e : ErrorKind) (d : BitVec 4) (i : BitVec 5) :
    (s.raise e d i).tWritten = s.tWritten := rfl

@[simp] theorem State.raise_tlen (s : State) (e : ErrorKind) (d : BitVec 4) (i : BitVec 5) :
    (s.raise e d i).tlen = s.tlen := rfl

@[simp] theorem State.raise_r (s : State) (e : ErrorKind) (d : BitVec 4) (i : BitVec 5) :
    (s.raise e d i).r = s.r := rfl

@[simp] theorem State.raise_rWritten (s : State) (e : ErrorKind) (d : BitVec 4) (i : BitVec 5) :
    (s.raise e d i).rWritten = s.rWritten := rfl

@[simp] theorem State.raise_strict (s : State) (e : ErrorKind) (d : BitVec 4) (i : BitVec 5) :
    (s.raise e d i).strict = s.strict := rfl

@[simp] theorem State.raise_status (s : State) (e : ErrorKind) (d : BitVec 4) (i : BitVec 5) :
    (s.raise e d i).status = ⟨e.code, d, i⟩ := rfl

@[simp] theorem State.raise_pending (s : State) (e : ErrorKind) (d : BitVec 4) (i : BitVec 5) :
    (s.raise e d i).pending = none := rfl

@[simp] theorem State.raise_unwrittenRead (s : State) (e : ErrorKind) (d : BitVec 4) (i : BitVec 5) :
    (s.raise e d i).unwrittenRead = s.unwrittenRead := rfl

@[simp] theorem State.raise_freeUses (s : State) (e : ErrorKind) (d : BitVec 4) (i : BitVec 5) :
    (s.raise e d i).freeUses = s.freeUses := rfl

@[simp] theorem State.raise_host (s : State) (e : ErrorKind) (d : BitVec 4) (i : BitVec 5) :
    (s.raise e d i).host = s.host := rfl

@[simp] theorem State.raise_reads (s : State) (e : ErrorKind) (d : BitVec 4) (i : BitVec 5) :
    (s.raise e d i).reads = s.reads := rfl

/-! ### `State.rejectCommand` -/

@[simp] theorem State.rejectCommand_w (s : State) (e : DecodeError) :
    (s.rejectCommand e).w = s.w := rfl

@[simp] theorem State.rejectCommand_wWritten (s : State) (e : DecodeError) :
    (s.rejectCommand e).wWritten = s.wWritten := rfl

@[simp] theorem State.rejectCommand_t (s : State) (e : DecodeError) :
    (s.rejectCommand e).t = s.t := rfl

@[simp] theorem State.rejectCommand_tWritten (s : State) (e : DecodeError) :
    (s.rejectCommand e).tWritten = s.tWritten := rfl

@[simp] theorem State.rejectCommand_tlen (s : State) (e : DecodeError) :
    (s.rejectCommand e).tlen = s.tlen := rfl

@[simp] theorem State.rejectCommand_r (s : State) (e : DecodeError) :
    (s.rejectCommand e).r = s.r := rfl

@[simp] theorem State.rejectCommand_rWritten (s : State) (e : DecodeError) :
    (s.rejectCommand e).rWritten = s.rWritten := rfl

@[simp] theorem State.rejectCommand_strict (s : State) (e : DecodeError) :
    (s.rejectCommand e).strict = s.strict := rfl

@[simp] theorem State.rejectCommand_status (s : State) (e : DecodeError) :
    (s.rejectCommand e).status = ⟨4, illegalDetail e, 0⟩ := rfl

@[simp] theorem State.rejectCommand_pending (s : State) (e : DecodeError) :
    (s.rejectCommand e).pending = none := rfl

@[simp] theorem State.rejectCommand_unwrittenRead (s : State) (e : DecodeError) :
    (s.rejectCommand e).unwrittenRead = s.unwrittenRead := rfl

@[simp] theorem State.rejectCommand_freeUses (s : State) (e : DecodeError) :
    (s.rejectCommand e).freeUses = s.freeUses := rfl

@[simp] theorem State.rejectCommand_host (s : State) (e : DecodeError) :
    (s.rejectCommand e).host = s.host := rfl

@[simp] theorem State.rejectCommand_reads (s : State) (e : DecodeError) :
    (s.rejectCommand e).reads = s.reads := rfl

/-! ### `State.finishWide` -/

@[simp] theorem State.finishWide_w (s : State) (rd : Reg) (x : Wide) :
    (s.finishWide rd x).w = s.w.set rd x := rfl

@[simp] theorem State.finishWide_wWritten (s : State) (rd : Reg) (x : Wide) :
    (s.finishWide rd x).wWritten = s.wWritten.set rd (Vector.replicate 4 true) := rfl

@[simp] theorem State.finishWide_t (s : State) (rd : Reg) (x : Wide) :
    (s.finishWide rd x).t = s.t := rfl

@[simp] theorem State.finishWide_tWritten (s : State) (rd : Reg) (x : Wide) :
    (s.finishWide rd x).tWritten = s.tWritten := rfl

@[simp] theorem State.finishWide_tlen (s : State) (rd : Reg) (x : Wide) :
    (s.finishWide rd x).tlen = s.tlen := rfl

@[simp] theorem State.finishWide_r (s : State) (rd : Reg) (x : Wide) :
    (s.finishWide rd x).r = s.r := rfl

@[simp] theorem State.finishWide_rWritten (s : State) (rd : Reg) (x : Wide) :
    (s.finishWide rd x).rWritten = s.rWritten := rfl

@[simp] theorem State.finishWide_strict (s : State) (rd : Reg) (x : Wide) :
    (s.finishWide rd x).strict = s.strict := rfl

@[simp] theorem State.finishWide_status (s : State) (rd : Reg) (x : Wide) :
    (s.finishWide rd x).status = Status.ok := rfl

@[simp] theorem State.finishWide_pending (s : State) (rd : Reg) (x : Wide) :
    (s.finishWide rd x).pending = none := rfl

@[simp] theorem State.finishWide_unwrittenRead (s : State) (rd : Reg) (x : Wide) :
    (s.finishWide rd x).unwrittenRead = s.unwrittenRead := rfl

@[simp] theorem State.finishWide_freeUses (s : State) (rd : Reg) (x : Wide) :
    (s.finishWide rd x).freeUses = s.freeUses := rfl

@[simp] theorem State.finishWide_host (s : State) (rd : Reg) (x : Wide) :
    (s.finishWide rd x).host = s.host := rfl

@[simp] theorem State.finishWide_reads (s : State) (rd : Reg) (x : Wide) :
    (s.finishWide rd x).reads = s.reads := rfl

/-! ### `State.finishResult` -/

@[simp] theorem State.finishResult_w (s : State) (v : Word) :
    (s.finishResult v).w = s.w := rfl

@[simp] theorem State.finishResult_wWritten (s : State) (v : Word) :
    (s.finishResult v).wWritten = s.wWritten := rfl

@[simp] theorem State.finishResult_t (s : State) (v : Word) :
    (s.finishResult v).t = s.t := rfl

@[simp] theorem State.finishResult_tWritten (s : State) (v : Word) :
    (s.finishResult v).tWritten = s.tWritten := rfl

@[simp] theorem State.finishResult_tlen (s : State) (v : Word) :
    (s.finishResult v).tlen = s.tlen := rfl

@[simp] theorem State.finishResult_r (s : State) (v : Word) :
    (s.finishResult v).r = v := rfl

@[simp] theorem State.finishResult_rWritten (s : State) (v : Word) :
    (s.finishResult v).rWritten = true := rfl

@[simp] theorem State.finishResult_strict (s : State) (v : Word) :
    (s.finishResult v).strict = s.strict := rfl

@[simp] theorem State.finishResult_status (s : State) (v : Word) :
    (s.finishResult v).status = Status.ok := rfl

@[simp] theorem State.finishResult_pending (s : State) (v : Word) :
    (s.finishResult v).pending = none := rfl

@[simp] theorem State.finishResult_unwrittenRead (s : State) (v : Word) :
    (s.finishResult v).unwrittenRead = s.unwrittenRead := rfl

@[simp] theorem State.finishResult_freeUses (s : State) (v : Word) :
    (s.finishResult v).freeUses = s.freeUses := rfl

@[simp] theorem State.finishResult_host (s : State) (v : Word) :
    (s.finishResult v).host = s.host := rfl

@[simp] theorem State.finishResult_reads (s : State) (v : Word) :
    (s.finishResult v).reads = s.reads := rfl

/-! ### `State.finishText` -/

@[simp] theorem State.finishText_w (s : State) (cs : List Byte) :
    (s.finishText cs).w = s.w := rfl

@[simp] theorem State.finishText_wWritten (s : State) (cs : List Byte) :
    (s.finishText cs).wWritten = s.wWritten := rfl

@[simp] theorem State.finishText_t (s : State) (cs : List Byte) :
    (s.finishText cs).t = overlayVector cs s.t := rfl

@[simp] theorem State.finishText_tWritten (s : State) (cs : List Byte) :
    (s.finishText cs).tWritten = overlayVector (cs.map fun _ => true) s.tWritten := rfl

@[simp] theorem State.finishText_tlen (s : State) (cs : List Byte) :
    (s.finishText cs).tlen = BitVec.ofNat 8 cs.length := rfl

@[simp] theorem State.finishText_r (s : State) (cs : List Byte) :
    (s.finishText cs).r = s.r := rfl

@[simp] theorem State.finishText_rWritten (s : State) (cs : List Byte) :
    (s.finishText cs).rWritten = s.rWritten := rfl

@[simp] theorem State.finishText_strict (s : State) (cs : List Byte) :
    (s.finishText cs).strict = s.strict := rfl

@[simp] theorem State.finishText_status (s : State) (cs : List Byte) :
    (s.finishText cs).status = Status.ok := rfl

@[simp] theorem State.finishText_pending (s : State) (cs : List Byte) :
    (s.finishText cs).pending = none := rfl

@[simp] theorem State.finishText_unwrittenRead (s : State) (cs : List Byte) :
    (s.finishText cs).unwrittenRead = s.unwrittenRead := rfl

@[simp] theorem State.finishText_freeUses (s : State) (cs : List Byte) :
    (s.finishText cs).freeUses = s.freeUses := rfl

@[simp] theorem State.finishText_host (s : State) (cs : List Byte) :
    (s.finishText cs).host = s.host := rfl

@[simp] theorem State.finishText_reads (s : State) (cs : List Byte) :
    (s.finishText cs).reads = s.reads := rfl

/-! ### `State.issue` -/

@[simp] theorem State.issue_w (s : State) (c : Word) :
    (s.issue c).w = s.w := rfl

@[simp] theorem State.issue_wWritten (s : State) (c : Word) :
    (s.issue c).wWritten = s.wWritten := rfl

@[simp] theorem State.issue_t (s : State) (c : Word) :
    (s.issue c).t = s.t := rfl

@[simp] theorem State.issue_tWritten (s : State) (c : Word) :
    (s.issue c).tWritten = s.tWritten := rfl

@[simp] theorem State.issue_tlen (s : State) (c : Word) :
    (s.issue c).tlen = s.tlen := rfl

@[simp] theorem State.issue_r (s : State) (c : Word) :
    (s.issue c).r = s.r := rfl

@[simp] theorem State.issue_rWritten (s : State) (c : Word) :
    (s.issue c).rWritten = s.rWritten := rfl

@[simp] theorem State.issue_strict (s : State) (c : Word) :
    (s.issue c).strict = s.strict := rfl

@[simp] theorem State.issue_status (s : State) (c : Word) :
    (s.issue c).status = s.status := rfl

@[simp] theorem State.issue_pending (s : State) (c : Word) :
    (s.issue c).pending = some ⟨c, Config.lat c⟩ := rfl

@[simp] theorem State.issue_unwrittenRead (s : State) (c : Word) :
    (s.issue c).unwrittenRead = s.unwrittenRead := rfl

@[simp] theorem State.issue_freeUses (s : State) (c : Word) :
    (s.issue c).freeUses = s.freeUses := rfl

@[simp] theorem State.issue_host (s : State) (c : Word) :
    (s.issue c).host = s.host := rfl

@[simp] theorem State.issue_reads (s : State) (c : Word) :
    (s.issue c).reads = s.reads := rfl

/-! ### `State.tick` -/

@[simp] theorem State.tick_w (s : State) :
    s.tick.w = s.w := rfl

@[simp] theorem State.tick_wWritten (s : State) :
    s.tick.wWritten = s.wWritten := rfl

@[simp] theorem State.tick_t (s : State) :
    s.tick.t = s.t := rfl

@[simp] theorem State.tick_tWritten (s : State) :
    s.tick.tWritten = s.tWritten := rfl

@[simp] theorem State.tick_tlen (s : State) :
    s.tick.tlen = s.tlen := rfl

@[simp] theorem State.tick_r (s : State) :
    s.tick.r = s.r := rfl

@[simp] theorem State.tick_rWritten (s : State) :
    s.tick.rWritten = s.rWritten := rfl

@[simp] theorem State.tick_strict (s : State) :
    s.tick.strict = s.strict := rfl

@[simp] theorem State.tick_status (s : State) :
    s.tick.status = s.status := rfl

@[simp] theorem State.tick_pending (s : State) :
    s.tick.pending = s.pending.map fun p => { p with latLeft := p.latLeft - 1 } := rfl

@[simp] theorem State.tick_unwrittenRead (s : State) :
    s.tick.unwrittenRead = s.unwrittenRead := rfl

@[simp] theorem State.tick_freeUses (s : State) :
    s.tick.freeUses = s.freeUses := rfl

@[simp] theorem State.tick_host (s : State) :
    s.tick.host = s.host := rfl

@[simp] theorem State.tick_reads (s : State) :
    s.tick.reads = s.reads := rfl

/-! ### `State.resetUnit` -/

@[simp] theorem State.resetUnit_w (s : State) :
    s.resetUnit.w = State.reset.w := rfl

@[simp] theorem State.resetUnit_wWritten (s : State) :
    s.resetUnit.wWritten = State.reset.wWritten := rfl

@[simp] theorem State.resetUnit_t (s : State) :
    s.resetUnit.t = State.reset.t := rfl

@[simp] theorem State.resetUnit_tWritten (s : State) :
    s.resetUnit.tWritten = State.reset.tWritten := rfl

@[simp] theorem State.resetUnit_tlen (s : State) :
    s.resetUnit.tlen = 0 := rfl

@[simp] theorem State.resetUnit_r (s : State) :
    s.resetUnit.r = State.reset.r := rfl

@[simp] theorem State.resetUnit_rWritten (s : State) :
    s.resetUnit.rWritten = false := rfl

@[simp] theorem State.resetUnit_strict (s : State) :
    s.resetUnit.strict = 0 := rfl

@[simp] theorem State.resetUnit_status (s : State) :
    s.resetUnit.status = Status.ok := rfl

@[simp] theorem State.resetUnit_pending (s : State) :
    s.resetUnit.pending = none := rfl

@[simp] theorem State.resetUnit_unwrittenRead (s : State) :
    s.resetUnit.unwrittenRead = s.unwrittenRead := rfl

@[simp] theorem State.resetUnit_freeUses (s : State) :
    s.resetUnit.freeUses = s.freeUses := rfl

@[simp] theorem State.resetUnit_host (s : State) :
    s.resetUnit.host = s.host := rfl

@[simp] theorem State.resetUnit_reads (s : State) :
    s.resetUnit.reads = s.reads := rfl

/-! ### `State.deliver` -/

@[simp] theorem State.deliver_w (s : State) (v : Word) :
    (s.deliver v).w = s.w := rfl

@[simp] theorem State.deliver_wWritten (s : State) (v : Word) :
    (s.deliver v).wWritten = s.wWritten := rfl

@[simp] theorem State.deliver_t (s : State) (v : Word) :
    (s.deliver v).t = s.t := rfl

@[simp] theorem State.deliver_tWritten (s : State) (v : Word) :
    (s.deliver v).tWritten = s.tWritten := rfl

@[simp] theorem State.deliver_tlen (s : State) (v : Word) :
    (s.deliver v).tlen = s.tlen := rfl

@[simp] theorem State.deliver_r (s : State) (v : Word) :
    (s.deliver v).r = s.r := rfl

@[simp] theorem State.deliver_rWritten (s : State) (v : Word) :
    (s.deliver v).rWritten = s.rWritten := rfl

@[simp] theorem State.deliver_strict (s : State) (v : Word) :
    (s.deliver v).strict = s.strict := rfl

@[simp] theorem State.deliver_status (s : State) (v : Word) :
    (s.deliver v).status = s.status := rfl

@[simp] theorem State.deliver_pending (s : State) (v : Word) :
    (s.deliver v).pending = s.pending := rfl

@[simp] theorem State.deliver_unwrittenRead (s : State) (v : Word) :
    (s.deliver v).unwrittenRead = s.unwrittenRead := rfl

@[simp] theorem State.deliver_freeUses (s : State) (v : Word) :
    (s.deliver v).freeUses = s.freeUses := rfl

@[simp] theorem State.deliver_host (s : State) (v : Word) :
    (s.deliver v).host = s.host := rfl

@[simp] theorem State.deliver_reads (s : State) (v : Word) :
    (s.deliver v).reads = v :: s.reads := rfl

/-! ### The end of a command -/

/-- A command all of whose operands are written ends as finished. -/
@[simp] theorem endCommand_written (f l : State) : endCommand true f l = .next f := rfl

/-- A command that read an unwritten operand ends without a result (70_reset_and_hazards.md R231). -/
@[simp] theorem endCommand_unwritten (f l : State) : endCommand false f l = .next l.abandon := rfl

/-- Everything the end of a command can be. -/
theorem endCommand_cases {written : Bool} {f l t : State} (h : endCommand written f l = .next t) :
    (written = true ∧ t = f) ∨ (written = false ∧ t = l.abandon) := by
  cases written <;> cases h
  · exact .inr ⟨rfl, rfl⟩
  · exact .inl ⟨rfl, rfl⟩

/-! ### Reads after writes -/

/-- The same register reads as written. -/
@[simp] theorem State.wide_writeWide_same (s : State) (r : Reg) (x : Wide) :
    (s.writeWide r x).wide r = x := by
  simp [State.wide]

/-- Every other register reads as before. -/
theorem State.wide_writeWide_other (s : State) {r r' : Reg} (x : Wide) (h : r' ≠ r) :
    (s.writeWide r x).wide r' = s.wide r' := by
  have hv : r.val ≠ r'.val := fun e => h (Fin.ext e.symm)
  simp [State.wide, hv]

/-- A written register is written in all its words. -/
@[simp] theorem State.wideWritten_writeWide_same (s : State) (r : Reg) (x : Wide) :
    (s.writeWide r x).wideWritten r = true := by
  simp [State.wideWritten]

/-- The marks of every other register stay. -/
theorem State.marks_writeWide_other (s : State) {r r' : Reg} (x : Wide) (h : r' ≠ r) :
    (s.writeWide r x).wWritten[r'] = s.wWritten[r'] := by
  have hv : r.val ≠ r'.val := fun e => h (Fin.ext e.symm)
  simp [hv]

/-- A lost register is written in none of its words (70_reset_and_hazards.md R231). -/
@[simp] theorem State.mark_loseWide_same (s : State) (r : Reg) (k : Fin 4) :
    (s.loseWide r).wWritten[r][k] = false := by
  simp

/-- Losing a register leaves the marks of every other one. -/
theorem State.marks_loseWide_other (s : State) {r r' : Reg} (h : r' ≠ r) :
    (s.loseWide r).wWritten[r'] = s.wWritten[r'] := by
  have hv : r.val ≠ r'.val := fun e => h (Fin.ext e.symm)
  simp [hv]

/-- TLEN takes the length (10_state.md R25). -/
@[simp] theorem State.writeText_tlen (s : State) (cs : List Byte) :
    (s.writeText cs).tlen = BitVec.ofNat 8 cs.length := rfl

/-- An overlaid list reads as the new one where that reaches, else as the old one. -/
theorem overlay_get? {α : Type} (xs ys : List α) (k : Nat) (h : k < ys.length) :
    (overlay xs ys)[k]? = if k < xs.length then xs[k]? else ys[k]? := by
  induction ys generalizing xs k with
  | nil => simp at h
  | cons y ys ih =>
    cases xs with
    | nil => simp [overlay]
    | cons x xs =>
      cases k with
      | zero => simp [overlay]
      | succ k => simpa [overlay] using ih xs k (by simpa using h)

/-- An overlaid vector, element by element. -/
theorem overlayVector_get {α : Type} {n : Nat} (xs : List α) (v : Vector α n) (k : Nat) (h : k < n) :
    (overlayVector xs v)[k] = if h' : k < xs.length then xs[k] else v[k] := by
  have hv : k < v.toList.length := by simpa using h
  have hg := overlay_get? xs v.toList k hv
  have hl : (overlayVector xs v)[k] = (overlay xs v.toList)[k]'(by simpa [overlay_length] using h) := rfl
  rw [hl]
  rw [List.getElem?_eq_getElem (by simpa [overlay_length] using h)] at hg
  split
  · rename_i h'
    rw [if_pos h', List.getElem?_eq_getElem h'] at hg
    exact Option.some.inj hg
  · rename_i h'
    rw [if_neg h', List.getElem?_eq_getElem hv] at hg
    simpa using Option.some.inj hg

/-- A byte of T after a text is written (41_base32_codec.md R133). -/
theorem State.writeText_get (s : State) (cs : List Byte) (k : Fin 32) :
    (s.writeText cs).t[k] = if h : k.val < cs.length then cs[k.val] else s.t[k] :=
  overlayVector_get cs s.t k.val k.isLt

/-- The mark of a byte of T after a text is written (10_state.md R34). -/
theorem State.writeText_mark (s : State) (cs : List Byte) (k : Fin 32) :
    (s.writeText cs).tWritten[k] = if k.val < cs.length then true else s.tWritten[k] := by
  have h := overlayVector_get (cs.map fun _ => true) s.tWritten k.val k.isLt
  refine h.trans ?_
  simp only [List.length_map, List.getElem_map]
  split <;> rfl

/-- The mark of a byte of T after a text is lost (70_reset_and_hazards.md R231). -/
theorem State.loseText_mark (s : State) (len : Nat) (k : Fin 32) :
    (s.loseText len).tWritten[k] = if k.val < len then false else s.tWritten[k] := by
  have h := overlayVector_get (List.replicate len false) s.tWritten k.val k.isLt
  refine h.trans ?_
  simp only [List.length_replicate, List.getElem_replicate]
  split <;> rfl

/-- A value's text has 26 characters (41_base32_codec.md R132). -/
@[simp] theorem encodeText_length (v : BitVec 128) : (encodeText v).length = 26 := rfl

/-- Character k of a value's text (41_base32_codec.md R132). -/
theorem encodeText_get (v : BitVec 128) (k : Nat) (h : k < 26) :
    (encodeText v)[k]'(by simpa using h) = encTable (encGroup v k) := by
  simp [encodeText]

end Sys2Proof.Machine
end

