-- ==== Sys2Proof/Laws/Window.lean ====
section
/-! SUPPORT. What the register window's reads and writes do, word by word (20_memory.md R56 to R59). -/

namespace Sys2Proof.Machine

/-! ### Words of a wide register -/

/-- The low and high word of two words side by side. -/
theorem append_words (a b : Word) :
    (a ++ b).extractLsb' 0 32 = b ∧ (a ++ b).extractLsb' 32 32 = a := by
  have ha := a.isLt
  have hb := b.isLt
  constructor <;>
  · apply BitVec.eq_of_toNat_eq
    rw [BitVec.extractLsb'_toNat, BitVec.toNat_append, ← Nat.shiftLeft_add_eq_or_of_lt hb,
      Nat.shiftRight_eq_div_pow, Nat.shiftLeft_eq]
    omega

/-- A limb is its two words. -/
theorem limb_words (a : BitVec 64) : a.extractLsb' 32 32 ++ a.extractLsb' 0 32 = a := by
  have ha := a.isLt
  apply BitVec.eq_of_toNat_eq
  rw [BitVec.toNat_append, ← Nat.shiftLeft_add_eq_or_of_lt (BitVec.isLt _),
    BitVec.extractLsb'_toNat, BitVec.extractLsb'_toNat, Nat.shiftLeft_eq]
  simp only [Nat.shiftRight_eq_div_pow]
  omega

/-- The written word reads as written, the others as before (20_memory.md R56, R58). -/
theorem wideWord_setWideWord (x : Wide) (k j : Fin 4) (v : Word) :
    wideWord (setWideWord x k v) j = if j = k then v else wideWord x j := by
  fin_cases k <;> fin_cases j <;>
    simp [wideWord, setWideWord, (append_words _ _).1, (append_words _ _).2]

/-- Two wide registers whose four words agree are the same. -/
theorem Wide.ext_words {x y : Wide} (h : ∀ k, wideWord x k = wideWord y k) : x = y := by
  have h0 := h 0
  have h1 := h 1
  have h2 := h 2
  have h3 := h 3
  simp only [wideWord] at h0 h1 h2 h3
  have hl : x.lo = y.lo := by rw [← limb_words x.lo, ← limb_words y.lo, h0, h1]
  have hh : x.hi = y.hi := by rw [← limb_words x.hi, ← limb_words y.hi, h2, h3]
  cases x; cases y; simp_all

/-! ### Words of T -/

/-- A byte of T after a word of it is written (20_memory.md R57, R58). -/
theorem setTextWord_get (t : Vector Byte 32) (m : Fin 8) (v : Word) (k : Fin 32) :
    (setTextWord t m v)[k] =
      if k.val / 4 = m.val then v.extractLsb' (8 * (k.val % 4)) 8 else t[k] := by
  have hm := m.isLt
  have hk := k.isLt
  simp only [setTextWord, Fin.getElem_fin, Vector.getElem_set]
  by_cases h : k.val / 4 = m.val
  · have hc : k.val % 4 = 0 ∨ k.val % 4 = 1 ∨ k.val % 4 = 2 ∨ k.val % 4 = 3 := by omega
    rw [if_pos h]
    rcases hc with hc | hc | hc | hc <;> rw [hc]
    · rw [if_neg (by omega), if_neg (by omega), if_neg (by omega), if_pos (by omega)]
    · rw [if_neg (by omega), if_neg (by omega), if_pos (by omega)]
    · rw [if_neg (by omega), if_pos (by omega)]
    · rw [if_pos (by omega)]
  · rw [if_neg h, if_neg (by omega), if_neg (by omega), if_neg (by omega), if_neg (by omega)]

/-- The mark of a byte of T after a word of it is written (20_memory.md R58). -/
theorem markTextWord_get (marks : Vector Bool 32) (m : Fin 8) (k : Fin 32) :
    (markTextWord marks m)[k] = if k.val / 4 = m.val then true else marks[k] := by
  have hm := m.isLt
  have hk := k.isLt
  simp only [markTextWord, Fin.getElem_fin, Vector.getElem_set]
  by_cases h : k.val / 4 = m.val
  · have hc : 4 * m.val + 3 = k.val ∨ 4 * m.val + 2 = k.val ∨ 4 * m.val + 1 = k.val ∨
        4 * m.val = k.val := by omega
    rw [if_pos h]
    rcases hc with hc | hc | hc | hc <;> simp [hc]
  · rw [if_neg h, if_neg (by omega), if_neg (by omega), if_neg (by omega), if_neg (by omega)]

/-! ### Which offset names a word -/

/-- The offset behind each kind of word that some rule singles out (20_memory.md R55). -/
theorem windowReg_inv {off : Nat} (h : off < 256) (h4 : off % 4 = 0) :
    (windowReg off = .config ↔ off = 0x048) ∧ (windowReg off = .tlen ↔ off = 0x044) ∧
    (windowReg off = .status ↔ off = 0x04C) ∧
    (∀ m : Fin 8, windowReg off = .text m → off = 0x080 + 4 * m.val) ∧
    (∀ i k : Fin 4, windowReg off = .wide i k → off = 0x10 * i.val + 4 * k.val) := by
  obtain ⟨m, rfl⟩ : ∃ m, off = 4 * m := ⟨off / 4, by omega⟩
  have hm : m < 64 := by omega
  clear h h4
  interval_cases m <;> decide

end Sys2Proof.Machine
end

