-- ==== Sys2Proof/Laws/Reads.lean ====
section
/-! SUPPORT. What a host read of W, T or R finds where the written marks are set (10_state.md R34), and
what it is for all of a register or a text to be marked. -/

namespace Sys2Proof.Machine

/-! ### Wide registers -/

/-- A written word of a wide register reads as its content. -/
theorem State.readWideWord_written {s : State} {r : Reg} {k : Fin 4} (h : s.wWritten[r][k] = true) :
    s.readWideWord r k = wideWord (s.wide r) k := by
  rw [State.readWideWord, if_pos h]

/-- A register has all its marks exactly where each of its words has its own. -/
theorem State.wideWritten_iff {s : State} {r : Reg} :
    s.wideWritten r = true ↔ ∀ k : Fin 4, s.wWritten[r][k] = true := by
  rw [State.wideWritten, Bool.and_eq_true, Bool.and_eq_true, Bool.and_eq_true]
  constructor
  · rintro ⟨⟨⟨h0, h1⟩, h2⟩, h3⟩ k
    fin_cases k
    exacts [h0, h1, h2, h3]
  · intro h
    exact ⟨⟨⟨h 0, h 1⟩, h 2⟩, h 3⟩

/-! ### T and R -/

/-- A written byte of T reads as its content. -/
theorem State.readByte_written {s : State} {k : Fin 32} (h : s.tWritten[k] = true) :
    s.readByte k = s.t[k] := by
  rw [State.readByte, if_pos h]

/-- A read of T, byte by byte. -/
@[simp] theorem State.readT_get (s : State) (k : Nat) (h : k < 32) : s.readT[k] = s.readByte ⟨k, h⟩ := by
  simp [State.readT]

/-- A text has all its marks exactly where each of its bytes has its own. -/
theorem State.textWritten_iff {s : State} {len : Nat} :
    s.textWritten len = true ↔ ∀ k : Fin 32, k.val < len → s.tWritten[k] = true := by
  rw [State.textWritten, List.all_eq_true]
  constructor
  · intro h k hk
    exact h _ (List.mem_take_iff_getElem.mpr ⟨k.val, by simp; omega, by simp⟩)
  · intro h x hx
    obtain ⟨k, hk, rfl⟩ := List.mem_take_iff_getElem.mp hx
    simp at hk
    simpa using h ⟨k, hk.2⟩ hk.1

/-- A written R reads as its content. -/
theorem State.readResult_written {s : State} (h : s.rWritten = true) : s.readResult = s.r := by
  rw [State.readResult, if_pos h]

end Sys2Proof.Machine
end

