-- ==== Sys2Proof/Laws/Agree.lean ====
section
/-! SUPPORT. Two states that agree on everything written (10_state.md R34) read the same, and still agree after
each shared operation. -/

namespace Sys2Proof.Machine

variable {a b : State}

/-! ### Reads -/

/-- A word of a wide register reads the same in both: a marked one by its content, an unmarked one by
the same free value. -/
theorem AgreeOnWritten.readWideWord (h : AgreeOnWritten a b) (r : Reg) (k : Fin 4) :
    a.readWideWord r k = b.readWideWord r k := by
  obtain ⟨h1, h2, h3, h4, h5, h6, h7, h8, h9, h10, h11, hf, h12, h13⟩ := h
  unfold State.readWideWord
  rw [← h1, ← hf]
  split
  · rename_i hm
    exact h4 r k hm
  · rfl

/-- A wide register whose words are all marked is the same in both. -/
theorem AgreeOnWritten.wide (h : AgreeOnWritten a b) {r : Reg} (hw : a.wideWritten r = true) :
    a.wide r = b.wide r :=
  Wide.ext_words fun k => h.2.2.2.1 r k (State.wideWritten_iff.mp hw k)

/-- A byte of T reads the same in both. -/
theorem AgreeOnWritten.readByte (h : AgreeOnWritten a b) (k : Fin 32) : a.readByte k = b.readByte k := by
  obtain ⟨h1, h2, h3, h4, h5, h6, h7, h8, h9, h10, h11, hf, h12, h13⟩ := h
  unfold State.readByte
  rw [← h2, ← hf]
  split
  · rename_i hm
    exact h5 k hm
  · rfl

/-- T reads the same in both. -/
theorem AgreeOnWritten.readT (h : AgreeOnWritten a b) : a.readT = b.readT := by
  unfold State.readT
  rw [funext h.readByte]

/-- A text whose bytes are all marked is the same in both. -/
theorem AgreeOnWritten.text (h : AgreeOnWritten a b) {n : Nat} (hw : a.textWritten n = true) :
    a.text n = b.text n := by
  apply List.ext_getElem
  · simp [State.text]
  · intro k h1 _
    have hk : k < n ∧ k < 32 := by simpa [State.text] using h1
    simpa [State.text] using h.2.2.2.2.1 ⟨k, hk.2⟩ (State.textWritten_iff.mp hw ⟨k, hk.2⟩ hk.1)

/-- R reads the same in both. -/
theorem AgreeOnWritten.readResult (h : AgreeOnWritten a b) : a.readResult = b.readResult := by
  obtain ⟨h1, h2, h3, h4, h5, h6, h7, h8, h9, h10, h11, hf, h12, h13⟩ := h
  unfold State.readResult
  rw [← h3, ← hf]
  split
  · rename_i hm
    exact h6 hm
  · rfl

/-- The marks of a wide register agree. -/
theorem AgreeOnWritten.wideWritten (h : AgreeOnWritten a b) (r : Reg) :
    a.wideWritten r = b.wideWritten r := by
  simp [State.wideWritten, h.1]

/-- The marks of a text agree. -/
theorem AgreeOnWritten.textWritten (h : AgreeOnWritten a b) (n : Nat) :
    a.textWritten n = b.textWritten n := by
  simp [State.textWritten, h.2.1]

/-- The marks of what DEC reads agree. -/
theorem AgreeOnWritten.decodeWritten (h : AgreeOnWritten a b) : a.decodeWritten = b.decodeWritten := by
  have ht : a.tlen = b.tlen := h.2.2.2.2.2.2.1
  simp [State.decodeWritten, ht, h.textWritten]

/-- Every word of the window reads the same in both, and has the same marks. -/
theorem AgreeOnWritten.window (h : AgreeOnWritten a b) (reg : WindowReg) :
    a.windowRead reg = b.windowRead reg ∧ a.windowWritten reg = b.windowWritten reg := by
  obtain ⟨h1, h2, h3, h4, h5, h6, h7, h8, h9, h10, h11, hf, h12, h13⟩ := id h
  cases reg <;>
    simp [State.windowRead, State.windowWritten, h.readWideWord, h.readResult, h.readT, h1, h2, h3, h7,
      h8, h9, h10, State.statusWord, State.busy]

/-! ### Operations -/

/-- Noting a use keeps the agreement. -/
theorem AgreeOnWritten.noteUse (h : AgreeOnWritten a b) (x : Bool) :
    AgreeOnWritten (a.noteUse x) (b.noteUse x) := by
  obtain ⟨h1, h2, h3, h4, h5, h6, h7, h8, h9, h10, h11, hf, h12, h13⟩ := h
  exact ⟨h1, h2, h3, h4, h5, h6, h7, h8, h9, h10, by simp [h11], by simp [hf], h12, h13⟩

/-- Ending without a result keeps the agreement. -/
theorem AgreeOnWritten.abandon (h : AgreeOnWritten a b) : AgreeOnWritten a.abandon b.abandon := by
  obtain ⟨h1, h2, h3, h4, h5, h6, h7, h8, h9, h10, h11, hf, h12, h13⟩ := h.noteUse false
  exact ⟨h1, h2, h3, h4, h5, h6, h7, h8, h9, rfl, h11, hf, h12, h13⟩

/-- Losing a wide register keeps the agreement. -/
theorem AgreeOnWritten.loseWide (h : AgreeOnWritten a b) (rd : Reg) :
    AgreeOnWritten (a.loseWide rd) (b.loseWide rd) := by
  obtain ⟨h1, h2, h3, h4, h5, h6, h7, h8, h9, h10, h11, hf, h12, h13⟩ := h
  refine ⟨by simp [h1], h2, h3, ?_, h5, h6, h7, h8, h9, h10, h11, hf, h12, h13⟩
  intro i k hm
  by_cases hi : i = rd
  · subst hi; simp at hm
  · rw [State.marks_loseWide_other _ hi] at hm
    exact h4 i k hm

/-- Losing R keeps the agreement. -/
theorem AgreeOnWritten.loseResult (h : AgreeOnWritten a b) :
    AgreeOnWritten a.loseResult b.loseResult := by
  obtain ⟨h1, h2, h3, h4, h5, h6, h7, h8, h9, h10, h11, hf, h12, h13⟩ := h
  exact ⟨h1, h2, rfl, h4, h5, fun hn => Bool.noConfusion hn, h7, h8, h9, h10, h11, hf, h12, h13⟩

/-- Losing a text keeps the agreement. -/
theorem AgreeOnWritten.loseText (h : AgreeOnWritten a b) (len : Nat) :
    AgreeOnWritten (a.loseText len) (b.loseText len) := by
  obtain ⟨h1, h2, h3, h4, h5, h6, h7, h8, h9, h10, h11, hf, h12, h13⟩ := h
  refine ⟨h1, by simp [h2], h3, h4, ?_, h6, h7, h8, h9, h10, h11, hf, h12, h13⟩
  intro k hk
  rw [State.loseText_mark] at hk
  split at hk
  · cases hk
  · exact h5 k hk

/-- However a command ends, it keeps the agreement, if it finishes alike wherever its operands are
written. -/
theorem AgreeOnWritten.endCommand {written : Bool} {f l f' l' a' : State}
    (hf : written = true → AgreeOnWritten f f') (hl : AgreeOnWritten l l')
    (h : Machine.endCommand written f l = .next a') :
    ∃ b', Machine.endCommand written f' l' = .next b' ∧ AgreeOnWritten a' b' := by
  rcases endCommand_cases h with ⟨hw, rfl⟩ | ⟨hw, rfl⟩ <;> subst hw
  · exact ⟨_, rfl, hf rfl⟩
  · exact ⟨_, rfl, hl.abandon⟩

/-- Completing a command keeps the agreement. -/
theorem AgreeOnWritten.complete (h : AgreeOnWritten a b) (st : Status) :
    AgreeOnWritten (a.complete st) (b.complete st) := by
  obtain ⟨h1, h2, h3, h4, h5, h6, h7, h8, h9, h10, h11, hf, h12, h13⟩ := h
  exact ⟨h1, h2, h3, h4, h5, h6, h7, h8, rfl, rfl, h11, hf, h12, h13⟩

/-- Writing a wide register keeps the agreement. -/
theorem AgreeOnWritten.writeWide (h : AgreeOnWritten a b) (rd : Reg) (x : Wide) :
    AgreeOnWritten (a.writeWide rd x) (b.writeWide rd x) := by
  obtain ⟨h1, h2, h3, h4, h5, h6, h7, h8, h9, h10, h11, hf, h12, h13⟩ := h
  refine ⟨by simp [h1], h2, h3, ?_, h5, h6, h7, h8, h9, h10, h11, hf, h12, h13⟩
  intro i k hm
  by_cases hi : i = rd
  · subst hi; simp
  · rw [State.wide_writeWide_other _ _ hi, State.wide_writeWide_other _ _ hi]
    apply h4
    rwa [State.marks_writeWide_other _ _ hi] at hm

/-- Writing R keeps the agreement. -/
theorem AgreeOnWritten.writeResult (h : AgreeOnWritten a b) (v : Word) :
    AgreeOnWritten (a.writeResult v) (b.writeResult v) := by
  obtain ⟨h1, h2, h3, h4, h5, h6, h7, h8, h9, h10, h11, hf, h12, h13⟩ := h
  exact ⟨h1, h2, rfl, h4, h5, fun _ => rfl, h7, h8, h9, h10, h11, hf, h12, h13⟩

/-- Writing a text keeps the agreement. -/
theorem AgreeOnWritten.writeText (h : AgreeOnWritten a b) (cs : List Byte) :
    AgreeOnWritten (a.writeText cs) (b.writeText cs) := by
  obtain ⟨h1, h2, h3, h4, h5, h6, h7, h8, h9, h10, h11, hf, h12, h13⟩ := h
  refine ⟨h1, by simp [State.writeText, h2], h3, h4, ?_, h6, rfl, h8, h9, h10, h11, hf, h12, h13⟩
  intro k hk
  rw [State.writeText_mark] at hk
  rw [State.writeText_get, State.writeText_get]
  split
  · rfl
  · rename_i hn; rw [if_neg hn] at hk; exact h5 k hk

/-- A host read keeps the agreement: it gives the host the same word. -/
theorem AgreeOnWritten.hostRead (h : AgreeOnWritten a b) (reg : WindowReg) :
    AgreeOnWritten (a.hostRead reg) (b.hostRead reg) := by
  unfold State.hostRead
  rw [(h.window reg).1, (h.window reg).2]
  obtain ⟨h1, h2, h3, h4, h5, h6, h7, h8, h9, h10, h11, hf, h12, h13⟩ := h.noteUse (b.windowWritten reg)
  exact ⟨h1, h2, h3, h4, h5, h6, h7, h8, h9, h10, h11, hf, h12, by simpa using h13⟩

/-- A host write keeps the agreement. -/
theorem AgreeOnWritten.windowWrite (h : AgreeOnWritten a b) (reg : WindowReg) (v : Word) :
    AgreeOnWritten (a.windowWrite reg v) (b.windowWrite reg v) := by
  obtain ⟨h1, h2, h3, h4, h5, h6, h7, h8, h9, h10, h11, hf, h12, h13⟩ := id h
  cases reg with
  | wide i k =>
    refine ⟨by simp [State.windowWrite, h1], h2, h3, ?_, h5, h6, h7, h8, h9, h10, h11, hf, h12, h13⟩
    intro i' k' hm
    by_cases hi : i' = i
    · subst hi
      simp only [State.windowWrite, State.wide, Fin.getElem_fin, Vector.getElem_set_self, wideWord_setWideWord]
      split
      · rfl
      · rename_i hk
        apply h4
        have : k.val ≠ k'.val := fun e => hk (Fin.ext e.symm)
        simpa [State.windowWrite, this] using hm
    · have hv : i.val ≠ i'.val := fun e => hi (Fin.ext e.symm)
      simp [State.windowWrite, State.wide, hv]
      apply h4
      simpa [State.windowWrite, hv] using hm
  | text m =>
    refine ⟨h1, by simp [State.windowWrite, h2], h3, h4, ?_, h6, h7, h8, h9, h10, h11, hf, h12, h13⟩
    intro k hk
    have hk : (markTextWord a.tWritten m)[k] = true := hk
    show (setTextWord a.t m v)[k] = (setTextWord b.t m v)[k]
    rw [setTextWord_get, setTextWord_get]
    split
    · rfl
    · rename_i hn; rw [markTextWord_get, if_neg hn] at hk; exact h5 k hk
  | tlen => exact ⟨h1, h2, h3, h4, h5, h6, rfl, h8, h9, h10, h11, hf, h12, h13⟩
  | config => exact ⟨h1, h2, h3, h4, h5, h6, h7, rfl, h9, h10, h11, hf, h12, h13⟩
  | cmd => exact ⟨h1, h2, h3, h4, h5, h6, h7, h8, h9, rfl, h11, hf, h12, h13⟩
  | _ => exact h

/-- The next host list keeps the agreement. -/
theorem AgreeOnWritten.setHost (h : AgreeOnWritten a b) (l : List HostOp) :
    AgreeOnWritten { a with host := l } { b with host := l } := by
  obtain ⟨h1, h2, h3, h4, h5, h6, h7, h8, h9, h10, h11, hf, h12, h13⟩ := h
  exact ⟨h1, h2, h3, h4, h5, h6, h7, h8, h9, h10, h11, hf, rfl, h13⟩

end Sys2Proof.Machine
end

