-- ==== Sys2Proof/Laws/Decode.lean ====
section
/-! SUPPORT. The fields of a command word built from fields, and when an opcode number is assigned
(30_encoding.md R71, R76). -/

namespace Sys2Proof

/-- A command word as the number its fields write (30_encoding.md R71). -/
theorem commandWord_toNat (op : Opcode) (rd rs1 rs2 : Reg) (imm : BitVec 16) :
    (commandWord op rd rs1 rs2 imm).toNat =
      op.bits.toNat * 2 ^ 26 + rd.val * 2 ^ 24 + rs1.val * 2 ^ 22 + rs2.val * 2 ^ 20 + imm.toNat := by
  have hd : (regBits rd).toNat = rd.val := rfl
  have h1 : (regBits rs1).toNat = rs1.val := rfl
  have h2 : (regBits rs2).toNat = rs2.val := rfl
  have hi := imm.isLt
  have key : ∀ a b w : Nat, b < 2 ^ w → (a <<< w ||| b) = a * 2 ^ w + b := fun a b w h => by
    rw [← Nat.shiftLeft_add_eq_or_of_lt h, Nat.shiftLeft_eq]
  simp only [commandWord, BitVec.toNat_append]
  rw [key _ (regBits rd).toNat 2 (regBits rd).isLt, key _ (regBits rs1).toNat 2 (regBits rs1).isLt,
    key _ (regBits rs2).toNat 2 (regBits rs2).isLt, key _ (0 : BitVec 4).toNat 4 (0 : BitVec 4).isLt,
    key _ imm.toNat 16 imm.isLt, hd, h1, h2]
  simp only [show (0 : BitVec 4).toNat = 0 from rfl]
  omega

/-- A bit field as a number, by division. -/
theorem field_toNat {w : Nat} (c : BitVec w) (start len : Nat) :
    (c.extractLsb' start len).toNat = c.toNat / 2 ^ start % 2 ^ len := by
  rw [BitVec.extractLsb'_toNat, Nat.shiftRight_eq_div_pow]

@[simp] theorem opField_commandWord (op : Opcode) (rd rs1 rs2 : Reg) (imm : BitVec 16) :
    opField (commandWord op rd rs1 rs2 imm) = op.bits := by
  apply BitVec.eq_of_toNat_eq
  have := op.bits.isLt
  have := imm.isLt
  rw [opField, field_toNat, commandWord_toNat]
  omega

@[simp] theorem rdField_commandWord (op : Opcode) (rd rs1 rs2 : Reg) (imm : BitVec 16) :
    rdField (commandWord op rd rs1 rs2 imm) = rd := by
  apply Fin.ext
  have := imm.isLt
  show (BitVec.extractLsb' 24 2 _).toNat = rd.val
  rw [field_toNat, commandWord_toNat]
  omega

@[simp] theorem rs1Field_commandWord (op : Opcode) (rd rs1 rs2 : Reg) (imm : BitVec 16) :
    rs1Field (commandWord op rd rs1 rs2 imm) = rs1 := by
  apply Fin.ext
  have := imm.isLt
  show (BitVec.extractLsb' 22 2 _).toNat = rs1.val
  rw [field_toNat, commandWord_toNat]
  omega

@[simp] theorem rs2Field_commandWord (op : Opcode) (rd rs1 rs2 : Reg) (imm : BitVec 16) :
    rs2Field (commandWord op rd rs1 rs2 imm) = rs2 := by
  apply Fin.ext
  have := imm.isLt
  show (BitVec.extractLsb' 20 2 _).toNat = rs2.val
  rw [field_toNat, commandWord_toNat]
  omega

@[simp] theorem immField_commandWord (op : Opcode) (rd rs1 rs2 : Reg) (imm : BitVec 16) :
    immField (commandWord op rd rs1 rs2 imm) = imm := by
  apply BitVec.eq_of_toNat_eq
  have := imm.isLt
  rw [immField, field_toNat, commandWord_toNat]
  omega

@[simp] theorem shiftField_commandWord (op : Opcode) (rd rs1 rs2 : Reg) (imm : BitVec 16) :
    shiftField (commandWord op rd rs1 rs2 imm) = imm.toNat % 256 := by
  have := imm.isLt
  rw [shiftField, field_toNat, commandWord_toNat]
  omega

/-- A number is assigned to the opcode that has it, and to no other (30_encoding.md R76). -/
theorem opcodeOfBits_bits (op : Opcode) : opcodeOfBits op.bits = some op := by
  cases op <;> decide

/-- An assigned number is its opcode's number (30_encoding.md R76). -/
theorem bits_of_opcodeOfBits {b : BitVec 6} {op : Opcode} (h : opcodeOfBits b = some op) :
    op.bits = b := by
  simpa using List.find?_some h

/-- AND of six fields side by side is the six ANDs side by side. -/
theorem append6_and {a b c d e f : Nat} (x0 m0 : BitVec a) (x1 m1 : BitVec b) (x2 m2 : BitVec c)
    (x3 m3 : BitVec d) (x4 m4 : BitVec e) (x5 m5 : BitVec f) :
    (x0 ++ x1 ++ x2 ++ x3 ++ x4 ++ x5) &&& (m0 ++ m1 ++ m2 ++ m3 ++ m4 ++ m5) =
      (x0 &&& m0) ++ (x1 &&& m1) ++ (x2 &&& m2) ++ (x3 &&& m3) ++ (x4 &&& m4) ++ (x5 &&& m5) := by
  simp only [BitVec.and_append]

/-- The bits of a command word under a mask, field by field (30_encoding.md R71). -/
theorem commandWord_and (op : Opcode) (rd rs1 rs2 : Reg) (imm : BitVec 16)
    (m0 : BitVec 6) (m1 m2 m3 : BitVec 2) (m4 : BitVec 4) (m5 : BitVec 16) :
    commandWord op rd rs1 rs2 imm &&& (m0 ++ m1 ++ m2 ++ m3 ++ m4 ++ m5) =
      (op.bits &&& m0) ++ (regBits rd &&& m1) ++ (regBits rs1 &&& m2) ++ (regBits rs2 &&& m3) ++
      (0 &&& m4) ++ (imm &&& m5) :=
  append6_and op.bits m0 (regBits rd) m1 (regBits rs1) m2 (regBits rs2) m3 0 m4 imm m5

end Sys2Proof
end

