-- ==== Sys2Proof/Laws/Codec.lean ====
section
/-! SUPPORT. The codec's functions as arithmetic: groups, digits and the accumulated number
(41_base32_codec.md R132, R140, R142). -/

namespace Sys2Proof.Machine

/-! ### Encode -/

/-- Group i is a digit of 4V in base 32 (41_base32_codec.md R132). -/
theorem encGroup_toNat (v : BitVec 128) {i : Nat} (h : i ≤ 25) :
    (encGroup v i).toNat = v.toNat * 4 / 32 ^ (25 - i) % 32 := by
  have hv := v.isLt
  have hq : (intermediate v).toNat = v.toNat * 4 := by
    rw [intermediate, BitVec.toNat_shiftLeft, BitVec.toNat_setWidth, Nat.shiftLeft_eq,
      Nat.mod_eq_of_lt (a := v.toNat) (by omega), Nat.mod_eq_of_lt (by omega)]
  rw [encGroup, field_toNat, hq, show 125 - 5 * i = 5 * (25 - i) by omega, pow_mul]
  norm_num

/-- The table inverts the encode table (41_base32_codec.md R141). -/
theorem decTable_encTable (g : BitVec 5) : decTable (encTable g) = some g := by
  revert g
  decide

/-! ### The accumulated number -/

/-- A number in base 32, one more digit. -/
theorem radix32_append (ds : List (BitVec 5)) (d : BitVec 5) :
    radix32 (ds ++ [d]) = radix32 ds * 32 + d.toNat := by
  simp [radix32]

/-- A number of n digits in base 32. -/
theorem radix32_lt (ds : List (BitVec 5)) : radix32 ds < 32 ^ ds.length := by
  induction ds using List.reverseRecOn with
  | nil => simp [radix32]
  | append_singleton ds d ih =>
    have hd := d.isLt
    rw [radix32_append, List.length_append, List.length_singleton, pow_succ]
    omega

/-- Accumulating at most 26 digits loses no bit (41_base32_codec.md R142, R151). -/
theorem accumulate_toNat (ds : List (BitVec 5)) (h : ds.length ≤ 26) :
    (accumulate ds).toNat = radix32 ds := by
  induction ds using List.reverseRecOn with
  | nil => rfl
  | append_singleton ds d ih =>
    rw [List.length_append, List.length_singleton] at h
    have hr : radix32 ds < 2 ^ 125 := by
      calc radix32 ds < 32 ^ ds.length := radix32_lt ds
        _ ≤ 32 ^ 25 := Nat.pow_le_pow_right (by norm_num) (by omega)
        _ = 2 ^ 125 := by norm_num
    have ha : accumulate (ds ++ [d]) = (accumulate ds <<< 5) ||| d.setWidth 130 := by
      simp [accumulate]
    have hd := d.isLt
    rw [ha, radix32_append, BitVec.toNat_or, BitVec.toNat_shiftLeft, BitVec.toNat_setWidth,
      ih (by omega), Nat.shiftLeft_eq, Nat.mod_eq_of_lt (a := d.toNat) (by omega),
      Nat.mod_eq_of_lt (by omega)]
    have hk := Nat.shiftLeft_add_eq_or_of_lt hd (radix32 ds)
    rw [Nat.shiftLeft_eq] at hk
    rw [← hk]

/-- The value of 26 digits, and of 25 (41_base32_codec.md R142). -/
theorem decodedValue_toNat (ds : List (BitVec 5)) :
    (ds.length = 26 → (decodedValue 26 (accumulate ds)).toNat = radix32 ds / 4) ∧
    (ds.length = 25 → (decodedValue 25 (accumulate ds)).toNat = radix32 ds) := by
  have hr := radix32_lt ds
  constructor <;> intro h
  · rw [h] at hr
    rw [decodedValue, if_pos rfl, field_toNat, accumulate_toNat ds (by omega)]
    norm_num at hr ⊢
    omega
  · rw [h] at hr
    rw [decodedValue, if_neg (by decide), BitVec.toNat_setWidth, field_toNat,
      accumulate_toNat ds (by omega)]
    norm_num at hr ⊢
    omega

/-- The discarded bits of 26 digits, and of 25 (41_base32_codec.md R142). -/
theorem padBits_eq_zero (ds : List (BitVec 5)) :
    (ds.length = 26 → (padBits 26 (accumulate ds) = 0 ↔ radix32 ds % 4 = 0)) ∧
    padBits 25 (accumulate ds) = 0 := by
  refine ⟨fun h => ?_, by simp [padBits]⟩
  have hp : (padBits 26 (accumulate ds)).toNat = radix32 ds % 4 := by
    rw [padBits, if_pos rfl, field_toNat, accumulate_toNat ds (by omega)]
    norm_num
  constructor
  · intro h0
    rw [← hp, h0]
    rfl
  · intro h0
    exact BitVec.eq_of_toNat_eq (by rw [hp, h0]; rfl)

/-! ### The characters -/

/-- A text of digits passes the character check, and its digits are those
(41_base32_codec.md R142, R146). -/
theorem digits_of_map {cs : List Byte} {ds : List (BitVec 5)} (h : cs.map decTable = ds.map some) :
    firstInvalid cs = none ∧ digitsOf cs = ds := by
  constructor
  · rw [firstInvalid, List.findIdx?_eq_none_iff]
    intro c hc
    have hm : decTable c ∈ ds.map some := h ▸ List.mem_map_of_mem hc
    obtain ⟨d, -, hd⟩ := List.mem_map.mp hm
    rw [← hd]
    rfl
  · have hf : digitsOf cs = (cs.map decTable).filterMap id := by
      simp [digitsOf, List.filterMap_map]
    rw [hf, h, List.filterMap_map]
    exact List.filterMap_some

/-- A text whose characters all have digits is written. -/
theorem TextDigits.written {s : State} {len : Nat} {ds : List (BitVec 5)} (h : TextDigits s len ds) :
    s.textWritten len = true :=
  State.textWritten_iff.mpr fun k hk => (h.2 k hk).1

/-- The characters of `T[0..len-1]` where `ds` are their digits. -/
theorem TextDigits.map_text {s : State} {len : Nat} {ds : List (BitVec 5)} (h : TextDigits s len ds)
    (hl : len ≤ 32) : (s.text len).map decTable = ds.map some := by
  obtain ⟨h1, h2⟩ := h
  apply List.ext_getElem
  · simp [State.text, h1, hl]
  · intro k hk1 hk2
    rw [List.length_map, h1] at hk2
    have hk32 : k < 32 := by omega
    have hk : decTable s.t[k] = ds[k]? := (h2 ⟨k, hk32⟩ hk2).2
    rw [List.getElem?_eq_getElem (by omega)] at hk
    simpa [State.text] using hk

/-- Character k of `T[0..len-1]`. -/
theorem State.text_get? (s : State) (len : Nat) (k : Fin 32) (h : k.val < len) :
    (s.text len)[k.val]? = some s.t[k] := by
  simp [State.text, h]

/-- How long `T[0..len-1]` is. -/
@[simp] theorem State.text_length (s : State) (len : Nat) : (s.text len).length = min len 32 := by
  simp [State.text]

/-- The first invalid character of a text is the one with only valid ones before it
(41_base32_codec.md R146). -/
theorem firstInvalid_eq_some {cs : List Byte} {k : Nat} :
    firstInvalid cs = some k ↔
      ∃ h : k < cs.length, decTable cs[k] = none ∧ ∀ j (hj : j < k), decTable cs[j] ≠ none := by
  rw [firstInvalid, List.findIdx?_eq_some_iff_getElem]
  simp

/-! ### Decode -/

/-- What decoding a text of digits comes to (41_base32_codec.md R142, R143, R147). -/
theorem decodeText_of_digits {strict : BitVec 1} {len : Nat} {cs : List Byte} {ds : List (BitVec 5)}
    (hl : lengthOk len = true) (h : cs.map decTable = ds.map some) :
    decodeText strict len cs =
      if strict = 1 ∧ padBits len (accumulate ds) ≠ 0 then .badPad
      else .value (decodedValue len (accumulate ds)) := by
  obtain ⟨h1, h2⟩ := digits_of_map h
  simp [decodeText, hl, h1, h2]

end Sys2Proof.Machine
end

