-- ==== Sys2Proof/Laws/Frames.lean ====
section
/-! SUPPORT. What each end of a command leaves alone, said once for all commands
(10_state.md R20; 60_exceptions.md R204, R206; 70_reset_and_hazards.md R231). -/

namespace Sys2Proof.Machine

/-! ### Ends with a result or an error -/

/-- A command that writes `W[rd]`. -/
theorem State.finishWide_frame (s : State) (rd : Reg) (x : Wide) : WideFrame rd s (s.finishWide rd x) :=
  ⟨fun _ hr => ⟨s.wide_writeWide_other x hr, s.marks_writeWide_other x hr⟩, ⟨rfl, rfl, rfl⟩, ⟨rfl, rfl⟩,
    rfl, rfl, rfl⟩

/-- A command that writes R. -/
theorem State.finishResult_frame (s : State) (v : Word) : ResultFrame s (s.finishResult v) :=
  ⟨fun _ => ⟨rfl, rfl⟩, ⟨rfl, rfl, rfl⟩, rfl, rfl, rfl⟩

/-- A command that writes 26 characters to T. -/
theorem State.finishText_frame (s : State) {cs : List Byte} (h : cs.length = 26) :
    EncFrame s (s.finishText cs) :=
  ⟨fun k hk => ⟨(s.writeText_get cs k).trans (dif_neg (by omega)),
    (s.writeText_mark cs k).trans (if_neg (by omega))⟩, fun _ => ⟨rfl, rfl⟩, ⟨rfl, rfl⟩, rfl, rfl, rfl⟩

/-- DEC writes `W[rd]`, or STATUS only. -/
theorem State.finishDecode_frame (s : State) (rd : Reg) (d : Decoded) :
    WideFrame rd s (s.finishDecode rd d) := by
  cases d with
  | value v => exact s.finishWide_frame rd (Wide.ofValue v)
  | _ => exact ⟨fun _ _ => ⟨rfl, rfl⟩, ⟨rfl, rfl, rfl⟩, ⟨rfl, rfl⟩, rfl, rfl, rfl⟩

/-! ### Ends without a result -/

/-- A command that would have written `W[rd]`. -/
theorem State.abandonWide (s : State) (rd : Reg) :
    NoResult s (s.loseWide rd).abandon ∧ WideFrame rd s (s.loseWide rd).abandon ∧
      ∀ k : Fin 4, (s.loseWide rd).abandon.wWritten[rd][k] = false :=
  ⟨by simp [NoResult, State.abandon, State.noteUse, State.loseWide],
    ⟨fun _ hr => ⟨rfl, s.marks_loseWide_other hr⟩, ⟨rfl, rfl, rfl⟩, ⟨rfl, rfl⟩, rfl, rfl, rfl⟩,
    s.mark_loseWide_same rd⟩

/-- A command that would have written R. -/
theorem State.abandonResult (s : State) :
    NoResult s s.loseResult.abandon ∧ ResultFrame s s.loseResult.abandon ∧
      s.loseResult.abandon.rWritten = false :=
  ⟨by simp [NoResult, State.abandon, State.noteUse, State.loseResult],
    ⟨fun _ => ⟨rfl, rfl⟩, ⟨rfl, rfl, rfl⟩, rfl, rfl, rfl⟩, rfl⟩

/-- ENC, which would have written `T[0..25]` and TLEN. -/
theorem State.abandonText (s : State) :
    NoResult s (s.loseText 26).abandon ∧ EncFrame s (s.loseText 26).abandon ∧
      ∀ k : Fin 32, k.val < 26 → (s.loseText 26).abandon.tWritten[k] = false :=
  ⟨by simp [NoResult, State.abandon, State.noteUse, State.loseText],
    ⟨fun k hk => ⟨rfl, (s.loseText_mark 26 k).trans (if_neg (by omega))⟩, fun _ => ⟨rfl, rfl⟩, ⟨rfl, rfl⟩,
      rfl, rfl, rfl⟩,
    fun k hk => (s.loseText_mark 26 k).trans (if_pos hk)⟩

end Sys2Proof.Machine
end

