-- ==== Sys2Proof/Laws/PerInstr.lean ====
section
/-! SUPPORT. The family `Encoding`: the encoded word of every command is a word of its own row of the opcode
map, `word & mask == match` (30_encoding.md R76). -/

namespace Sys2Proof.Laws.Encoding

/-- The encoded word carries its row's match under its row's mask. -/
def Statement (i : Sys2Proof.Instr) : Prop :=
  i.wellFormed = true → Sys2Proof.encode i &&& i.opcode.mask = i.opcode.matchWord

/-- A field under an all-zero mask. -/
theorem field_and_zero {w : Nat} (x : BitVec w) : x &&& (0 : BitVec w) = 0 := BitVec.and_zero

/-- An encodable shift amount has no bit above bit 7 (30_encoding.md R73). -/
theorem shift_high_zero (n : Nat) (h : n ≤ 255) : BitVec.ofNat 16 n &&& 0xFF00 = 0 := by
  interval_cases n <;> rfl

theorem make (rd rs1 rs2 : Sys2Proof.Reg) : Statement (.make rd rs1 rs2) := fun _ => by
  refine (commandWord_and .make rd rs1 rs2 0 0x3F 0 0 0 0xF 0xFFFF).trans ?_
  simp only [field_and_zero]
  rfl

theorem shl (rd rs1 : Sys2Proof.Reg) (n : Nat) : Statement (.shl rd rs1 n) := fun h => by
  have hn : n ≤ 255 := by simpa [Instr.wellFormed, shiftAmountOk] using h
  refine (commandWord_and .shl rd rs1 0 (BitVec.ofNat 16 n) 0x3F 0 0 3 0xF 0xFF00).trans ?_
  rw [shift_high_zero n hn]
  simp only [field_and_zero]
  rfl

theorem shr (rd rs1 : Sys2Proof.Reg) (n : Nat) : Statement (.shr rd rs1 n) := fun h => by
  have hn : n ≤ 255 := by simpa [Instr.wellFormed, shiftAmountOk] using h
  refine (commandWord_and .shr rd rs1 0 (BitVec.ofNat 16 n) 0x3F 0 0 3 0xF 0xFF00).trans ?_
  rw [shift_high_zero n hn]
  simp only [field_and_zero]
  rfl

theorem ori (rd rs1 : Sys2Proof.Reg) (k : BitVec 16) : Statement (.ori rd rs1 k) := fun _ => by
  refine (commandWord_and .ori rd rs1 0 k 0x3F 0 0 3 0xF 0).trans ?_
  simp only [field_and_zero]
  rfl

theorem orx (rd rs1 rs2 : Sys2Proof.Reg) : Statement (.orx rd rs1 rs2) := fun _ => by
  refine (commandWord_and .orx rd rs1 rs2 0 0x3F 0 0 0 0xF 0xFFFF).trans ?_
  simp only [field_and_zero]
  rfl

theorem hi (rd rs1 : Sys2Proof.Reg) : Statement (.hi rd rs1) := fun _ => by
  refine (commandWord_and .hi rd rs1 0 0 0x3F 0 0 3 0xF 0xFFFF).trans ?_
  simp only [field_and_zero]
  rfl

theorem lo (rd rs1 : Sys2Proof.Reg) : Statement (.lo rd rs1) := fun _ => by
  refine (commandWord_and .lo rd rs1 0 0 0x3F 0 0 3 0xF 0xFFFF).trans ?_
  simp only [field_and_zero]
  rfl

theorem enc (rs1 : Sys2Proof.Reg) : Statement (.enc rs1) := fun _ => by
  refine (commandWord_and .enc 0 rs1 0 0 0x3F 3 0 3 0xF 0xFFFF).trans ?_
  simp only [field_and_zero]
  rfl

theorem dec (rd : Sys2Proof.Reg) : Statement (.dec rd) := fun _ => by
  refine (commandWord_and .dec rd 0 0 0 0x3F 0 3 3 0xF 0xFFFF).trans ?_
  simp only [field_and_zero]
  rfl

theorem cmp (rs1 rs2 : Sys2Proof.Reg) : Statement (.cmp rs1 rs2) := fun _ => by
  refine (commandWord_and .cmp 0 rs1 rs2 0 0x3F 3 0 0 0xF 0xFFFF).trans ?_
  simp only [field_and_zero]
  rfl

theorem hash (rs1 : Sys2Proof.Reg) : Statement (.hash rs1) := fun _ => by
  refine (commandWord_and .hash 0 rs1 0 0 0x3F 3 0 3 0xF 0xFFFF).trans ?_
  simp only [field_and_zero]
  rfl

end Sys2Proof.Laws.Encoding
end

