-- ==== Sys2Proof/Laws/Step.lean ====
section
/-! SUPPORT. What each shared operation can do, said once: an access, a turn of the host, a command, a
step. Later proofs cite these and do not unfold the operations. -/

namespace Sys2Proof.Machine

/-! ### Accesses -/

/-- A supported access reaches the word its offset names (20_memory.md R54, R55). -/
theorem accessOffset_some {addr nbytes off : Nat} :
    accessOffset addr nbytes = some off ↔
      nbytes = 4 ∧ addr = Config.base + off ∧ off < 256 ∧ off % 4 = 0 := by
  unfold accessOffset
  split
  · rename_i h
    obtain ⟨h1, h2, h3, h4⟩ := h
    rw [Option.some.injEq]
    omega
  · rename_i h
    constructor
    · intro hn; cases hn
    · rintro ⟨h1, h2, h3, h4⟩
      exact absurd ⟨h1, by omega, by omega, by rw [h2, Nat.add_sub_cancel_left]; exact h4⟩ h

/-- The access at BASE + off (00_scope.md R12). -/
theorem accessOffset_base {off : Nat} (h : off < 256) (h4 : off % 4 = 0) :
    accessOffset (Config.base + off) 4 = some off :=
  accessOffset_some.mpr ⟨rfl, rfl, h, h4⟩

/-- Where an access succeeds, its form is supported and it is no hazard. -/
theorem State.access_ok {s : State} {addr nbytes : Nat} {allowed : WindowReg → Bool} {reg : WindowReg}
    (h : s.access addr nbytes allowed = .ok reg) :
    ∃ off, accessOffset addr nbytes = some off ∧ reg = windowReg off ∧
      (s.busy = true → allowed reg = true) := by
  unfold State.access at h
  split at h
  · cases h
  · rename_i off ho
    split at h
    · cases h
    · rename_i hb
      cases h
      exact ⟨off, ho, rfl, fun hs => by simpa [hs] using hb⟩

/-! ### The host's turn -/

/-- Everything a turn of the host can do when it answers a next state. -/
theorem hostTurn_cases {s t : State} (h : hostTurn s = .next t) :
    (s.host = [] ∧ t = s) ∨
    (∃ rest, s.host = .idle :: rest ∧ t = { s with host := rest }) ∨
    (∃ rest, s.host = .reset :: rest ∧ t = { s with host := rest }.resetUnit) ∨
    (∃ rest, s.host = .wait :: rest ∧ t = s.poll rest) ∨
    (∃ addr nbytes rest off, s.host = .read addr nbytes :: rest ∧
      accessOffset addr nbytes = some off ∧ (s.busy = true → windowReg off = .status) ∧
      t = { s with host := rest }.hostRead (windowReg off)) ∨
    (∃ addr nbytes v rest off, s.host = .write addr nbytes v :: rest ∧
      accessOffset addr nbytes = some off ∧ s.busy = false ∧
      t = { s with host := rest }.windowWrite (windowReg off) v) := by
  unfold hostTurn at h
  split at h
  · rename_i hh
    cases h
    exact .inl ⟨hh, rfl⟩
  · rename_i rest hh
    cases h
    exact .inr (.inl ⟨rest, hh, rfl⟩)
  · rename_i rest hh
    cases h
    exact .inr (.inr (.inl ⟨rest, hh, rfl⟩))
  · rename_i rest hh
    cases h
    exact .inr (.inr (.inr (.inl ⟨rest, hh, rfl⟩)))
  · rename_i addr nbytes rest hh
    unfold hostReadTurn at h
    split at h
    · rename_i reg ha
      cases h
      obtain ⟨off, ho, rfl, hb⟩ := State.access_ok ha
      exact .inr (.inr (.inr (.inr (.inl ⟨addr, nbytes, rest, off, hh, ho,
        fun hs => by simpa using hb hs, rfl⟩))))
    · cases h
  · rename_i addr nbytes v rest hh
    unfold hostWriteTurn at h
    split at h
    · rename_i reg ha
      cases h
      obtain ⟨off, ho, rfl, hb⟩ := State.access_ok ha
      refine .inr (.inr (.inr (.inr (.inr ⟨addr, nbytes, v, rest, off, hh, ho, ?_, rfl⟩))))
      cases hs : s.busy with
      | false => rfl
      | true => exact absurd (hb hs) (by simp)
    · cases h

/-! ### Steps in which the host acts on an idle unit -/

/-- With nothing pending a step is the host's turn (70_reset_and_hazards.md R240). -/
theorem step_idle {s : State} (hp : s.pending = none) : step s = hostTurn s := by
  simp [step, hp]

/-- A supported write reaches its word (20_memory.md R58). -/
theorem step_writeOp {s : State} {off : Nat} {v : Word} {rest : List HostOp} (hp : s.pending = none)
    (hh : s.host = writeOp off v :: rest) (h : off < 256) (h4 : off % 4 = 0) :
    step s = .next ({ s with host := rest }.windowWrite (windowReg off) v) := by
  simp [step_idle hp, hostTurn, hh, writeOp, hostWriteTurn, State.access, accessOffset_base h h4,
    State.busy, hp]

/-- A supported read answers with its word (20_memory.md R59). -/
theorem step_readOp {s : State} {off : Nat} {rest : List HostOp} (hp : s.pending = none)
    (hh : s.host = readOp off :: rest) (h : off < 256) (h4 : off % 4 = 0) :
    step s = .next ({ s with host := rest }.hostRead (windowReg off)) := by
  simp [step_idle hp, hostTurn, hh, readOp, hostReadTurn, State.access, accessOffset_base h h4,
    State.busy, hp]

/-- One poll of `wait`: the host sees STATUS and goes on once BUSY reads 0 (30_encoding.md R83). -/
theorem State.poll_eq (s : State) (rest : List HostOp) :
    s.poll rest = { s with
      reads := s.statusWord :: s.reads
      host := if s.busy then s.host else rest } := by
  unfold State.poll State.hostRead
  split <;> simp_all [State.deliver, State.noteUse, State.windowRead, State.windowWritten]

/-! ### Commands -/

/-- A command always answers a next state in which nothing is pending (00_scope.md R18), and keeps what
every command does. -/
theorem exec_common (i : Instr) (s : State) :
    ∃ t, exec i s = .next t ∧ t.pending = none ∧ Keeps s t := by
  have key : ∀ (written : Bool) (f l : State), Keeps s f → Keeps s l → f.pending = none →
      ∃ t, endCommand written f l = .next t ∧ t.pending = none ∧ Keeps s t := by
    intro written f l hf hl hp
    cases written with
    | true => exact ⟨_, rfl, hp, hf⟩
    | false =>
      obtain ⟨h1, h2, h3, -, h5⟩ := hl
      exact ⟨_, rfl, rfl, h1, h2, h3, fun _ => State.abandon_unwrittenRead l, by simp; omega⟩
  cases i with
  | dec rd =>
    refine key _ _ _ ?_ ?_ ?_ <;>
      cases decodeText s.strict s.tlen.toNat (s.text s.tlen.toNat) <;>
      simp [State.finishDecode, Keeps]
  | _ => exact key _ _ _ (by simp [Keeps]) (by simp [Keeps]) rfl

/-! ### A step -/

/-- Everything a step can do when it answers a next state: the unit runs or rejects the pending word,
or the host has its turn, with or without one step of latency passing. -/
theorem step_cases {s t : State} (h : step s = .next t) :
    (∃ p i, s.pending = some p ∧ p.latLeft = 0 ∧ decode p.command = .ok i ∧ exec i s = .next t) ∨
    (∃ p e, s.pending = some p ∧ p.latLeft = 0 ∧ decode p.command = .error e ∧
      t = s.rejectCommand e) ∨
    (s.pending = none ∧ hostTurn s = .next t) ∨
    (∃ p, s.pending = some p ∧ p.latLeft ≠ 0 ∧ hostTurn s.tick = .next t) := by
  unfold step at h
  split at h
  · rename_i hp
    exact .inr (.inr (.inl ⟨hp, h⟩))
  · rename_i p hp
    split at h
    · rename_i hl
      unfold runCommand at h
      split at h
      · rename_i i hd
        exact .inl ⟨p, i, hp, hl, hd, h⟩
      · rename_i e hd
        cases h
        exact .inr (.inl ⟨p, e, hp, hl, hd, rfl⟩)
    · rename_i hl
      exact .inr (.inr (.inr ⟨p, hp, hl, h⟩))

/-- The same in three cases: a command runs, a word is rejected, or the host has its turn on the state
with only the pending command's latency changed. -/
theorem step_turns {s t : State} (h : step s = .next t) :
    (∃ p i, s.pending = some p ∧ p.latLeft = 0 ∧ decode p.command = .ok i ∧ exec i s = .next t) ∨
    (∃ e, t = s.rejectCommand e) ∨
    ∃ pd, hostTurn { s with pending := pd } = .next t := by
  rcases step_cases h with hr | ⟨p, e, _, _, _, rfl⟩ | ⟨_, hh⟩ | ⟨p, _, _, hh⟩
  · exact .inl hr
  · exact .inr (.inl ⟨e, rfl⟩)
  · exact .inr (.inr ⟨s.pending, hh⟩)
  · exact .inr (.inr ⟨_, hh⟩)

/-! ### Runs -/

/-- A run of one more step, on any machine, where its first step answers a next state. -/
theorem run_succ_any (M : Host.Core) (n : Nat) {s t : M.State} (h : M.step s = .next t) :
    M.run (n + 1) s = M.run n t := by
  rw [Host.Core.run, h]

/-- A run of one more step, where its first step answers a next state. -/
theorem run_succ {s t : State} (n : Nat) (h : step s = .next t) :
    core.run (n + 1) s = core.run n t :=
  run_succ_any core n h

/-- The empty run. -/
@[simp] theorem run_zero (s : State) : core.run 0 s = .next s := rfl

end Sys2Proof.Machine
end

