-- ==== Sys2Proof/Laws/Word.lean ====
section
/-! SUPPORT. The two readings of a wide register are inverse to each other (10_state.md R22). -/

namespace Sys2Proof

/-- The limbs of a 128-bit integer hold it. -/
@[simp] theorem Wide.value_ofValue (v : BitVec 128) : (Wide.ofValue v).value = v := by
  apply BitVec.eq_of_toNat_eq
  have h := v.isLt
  simp only [Wide.value, Wide.ofValue, BitVec.toNat_append, BitVec.extractLsb'_toNat]
  rw [← Nat.shiftLeft_add_eq_or_of_lt (Nat.mod_lt _ (by norm_num))]
  simp only [Nat.shiftLeft_eq, Nat.shiftRight_eq_div_pow]
  omega

/-- The number two limbs write. -/
theorem Wide.value_toNat (x : Wide) : x.value.toNat = x.hi.toNat * 2 ^ 64 + x.lo.toNat := by
  simp only [Wide.value, BitVec.toNat_append]
  rw [← Nat.shiftLeft_add_eq_or_of_lt x.lo.isLt, Nat.shiftLeft_eq]

/-- Two wide registers with the same value have the same limbs. -/
theorem Wide.value_inj {x y : Wide} (h : x.value = y.value) : x = y := by
  have hn := congrArg BitVec.toNat h
  rw [Wide.value_toNat, Wide.value_toNat] at hn
  have h1 := x.lo.isLt
  have h2 := y.lo.isLt
  have hl : x.lo = y.lo := BitVec.eq_of_toNat_eq (by omega)
  have hh : x.hi = y.hi := BitVec.eq_of_toNat_eq (by rw [hl] at hn; omega)
  cases x; cases y; simp_all

end Sys2Proof
end

