-- ==== Sys2Proof/Tests/Slice0.lean ====
section
/-! SUPPORT. The model's own tests, their expected results from 95_test_vectors.md, and a witness for the
hypotheses of each statement that has some. -/

namespace Sys2Proof.Tests

open Sys2Proof.Machine

/-! ### Helpers -/

/-- X of 95_test_vectors.md. -/
def wx : Wide := ⟨0x0123456789ABCDEF, 0xFEDCBA9876543210⟩

/-- A state with W0, W1 and W2 written. -/
def loaded (x y z : Wide) : State :=
  ((State.reset.writeWide 0 x).writeWide 1 y).writeWide 2 z

/-- ASCII codes of a text. -/
def codes (s : String) : List Byte := s.toList.map fun c => BitVec.ofNat 8 c.toNat

/-- A state with a text and its length written, in a mode. -/
def withText (s : String) (strict : BitVec 1) : State :=
  { State.reset.writeText (codes s) with strict := strict }

/-- A state in which the next step runs this word. -/
def pendingWord (c : Word) (lat : Nat) : State := { State.reset with pending := some ⟨c, lat⟩ }

/-- A state whose host is about to do this. -/
def hosting (ops : List HostOp) : State := { State.reset with host := ops }

/-- A busy state whose host is about to do this. -/
def busyHosting (ops : List HostOp) : State := { hosting ops with pending := some ⟨0x40000000, 1⟩ }

/-- A field of the next state. -/
def onNext {α : Type} (f : State → α) : Host.Outcome State Fault Refusal → Option α
  | .next s => some (f s)
  | _ => none

/-! ### WellFormed refuses what has no encoding (30_encoding.md R73, R81) -/

theorem test_shl_256_ill_formed : (Instr.shl 0 1 256).wellFormed = false := by decide

theorem test_shr_256_ill_formed : (Instr.shr 0 1 256).wellFormed = false := by decide

theorem test_shift_255_well_formed :
    (Instr.shl 0 1 255).wellFormed = true ∧ (Instr.shr 0 1 255).wellFormed = true := by decide

/-! ### Words written out from the spec's encodings decode, and encode back (30_encoding.md R76) -/

theorem test_decode_make : decode 0b00000101100100000000000000000000 = .ok (.make 1 2 1) ∧
    encode (.make 1 2 1) = 0x05900000 := by decide

theorem test_decode_shl : decode 0b00001000010000000000000000111111 = .ok (.shl 0 1 63) ∧
    encode (.shl 0 1 63) = 0x0840003F := by decide

theorem test_decode_shr : decode 0b00001110000000000000000001100100 = .ok (.shr 2 0 100) ∧
    encode (.shr 2 0 100) = 0x0E000064 := by decide

theorem test_decode_ori : decode 0b00010000010000001000000000000000 = .ok (.ori 0 1 0x8000) ∧
    encode (.ori 0 1 0x8000) = 0x10408000 := by decide

theorem test_decode_orx : decode 0b00010111110100000000000000000000 = .ok (.orx 3 3 1) ∧
    encode (.orx 3 3 1) = 0x17D00000 := by decide

theorem test_decode_hi : decode 0b00011011000000000000000000000000 = .ok (.hi 3 0) ∧
    encode (.hi 3 0) = 0x1B000000 := by decide

theorem test_decode_lo : decode 0b00011101010000000000000000000000 = .ok (.lo 1 1) ∧
    encode (.lo 1 1) = 0x1D400000 := by decide

theorem test_decode_enc : decode 0b01000000100000000000000000000000 = .ok (.enc 2) ∧
    encode (.enc 2) = 0x40800000 := by decide

theorem test_decode_dec : decode 0b01000110000000000000000000000000 = .ok (.dec 2) ∧
    encode (.dec 2) = 0x46000000 := by decide

theorem test_decode_cmp : decode 0b01100000110000000000000000000000 = .ok (.cmp 3 0) ∧
    encode (.cmp 3 0) = 0x60C00000 := by decide

theorem test_decode_hash : decode 0b01100100100000000000000000000000 = .ok (.hash 2) ∧
    encode (.hash 2) = 0x64800000 := by decide

/-- IV1 to IV5: reserved opcodes. -/
theorem test_reserved_opcodes :
    [0x00000000, 0x20000000, 0x48000000, 0x80000000, 0xFC000000, 0xFFFFFFFF].map decode =
      List.replicate 6 (.error .reservedOpcode) := by decide

/-- IV6 to IV23: must-be-zero fields. -/
theorem test_nonzero_fields :
    ([0x41000000, 0x40100000, 0x40000001, 0x08400100, 0x08500000, 0x0C4F0000, 0x10410000, 0x14610000,
      0x44010000] ++ [0x44400000, 0x44000001, 0x61000000, 0x60180000, 0x64100000, 0x18100000,
      0x1C000001, 0x04008000, 0x04610000]).map decode =
      List.replicate 18 (.error .nonzeroField) := by decide

/-! ### Commands, on the vectors of 95_test_vectors.md -/

/-- WV53: a source that is also the destination. -/
theorem test_make : onNext (fun t => t.wide 1) (exec (.make 1 2 1) (loaded wx ⟨0, 1⟩ ⟨0, 2⟩)) =
    some ⟨2, 1⟩ := by decide

/-- WV5. -/
theorem test_shl_63 : onNext (fun t => t.wide 0) (exec (.shl 0 1 63) (loaded ⟨0, 0⟩ wx ⟨0, 0⟩)) =
    some ⟨0xFF6E5D4C3B2A1908, 0⟩ := by decide

/-- WV7 and WV33. -/
theorem test_shl_over_limb :
    onNext (fun t => t.wide 0) (exec (.shl 0 1 65) (loaded ⟨0, 0⟩ wx ⟨0, 0⟩)) =
      some ⟨0xFDB97530ECA86420, 0⟩ ∧
    onNext (fun t => t.wide 0) (exec (.shl 0 1 128) (loaded ⟨0, 0⟩ wx ⟨0, 0⟩)) = some ⟨0, 0⟩ := by
  decide

/-- WV13. -/
theorem test_shr_1 : onNext (fun t => t.wide 0) (exec (.shr 0 1 1) (loaded ⟨0, 0⟩ wx ⟨0, 0⟩)) =
    some ⟨0x0091A2B3C4D5E6F7, 0xFF6E5D4C3B2A1908⟩ := by decide

/-- WV19. -/
theorem test_shr_100 : onNext (fun t => t.wide 0) (exec (.shr 0 1 100) (loaded ⟨0, 0⟩ wx ⟨0, 0⟩)) =
    some ⟨0, 0x0000000000123456⟩ := by decide

/-- WV37. -/
theorem test_ori : onNext (fun t => t.wide 0) (exec (.ori 0 1 0xFFFF) (loaded ⟨0, 0⟩ wx ⟨0, 0⟩)) =
    some ⟨0x0123456789ABCDEF, 0xFEDCBA987654FFFF⟩ := by decide

/-- The example of 40_wide_integer.md R114. -/
theorem test_orx : onNext (fun t => t.wide 0) (exec (.orx 0 1 2)
    (loaded ⟨0, 0⟩ ⟨0xFFFF0000FFFF0000, 0⟩ ⟨0x1111111111111111, 0x00000000000000AB⟩)) =
    some ⟨0xFFFF0000FFFF0000, 0x00000000000000AB⟩ := by decide

/-- WV45. -/
theorem test_hi : onNext (fun t => t.wide 0) (exec (.hi 0 1) (loaded ⟨0, 0⟩ wx ⟨0, 0⟩)) =
    some ⟨0, 0x0123456789ABCDEF⟩ := by decide

/-- WV49. -/
theorem test_lo : onNext (fun t => t.wide 1) (exec (.lo 1 1)
    (loaded ⟨0, 0⟩ ⟨0xFFFFFFFFFFFFFFFF, 0xFFFFFFFFFFFFFFFF⟩ ⟨0, 0⟩)) =
    some ⟨0, 0xFFFFFFFFFFFFFFFF⟩ := by decide

/-- EV15. -/
theorem test_enc : onNext (fun t => (t.text 26, t.tlen)) (exec (.enc 0) (loaded wx wx wx)) =
    some (codes "04HMASW9NF6YZZPWQAC7CN1J20", 26) := by decide

/-- EV12 and EV8: the pad is at the bottom. -/
theorem test_enc_pad :
    encodeText 0x7FFFFFFFFFFFFFFFFFFFFFFFFFFFFFFF = codes "FZZZZZZZZZZZZZZZZZZZZZZZZW" ∧
    encodeText 0x1F = codes "0000000000000000000000003W" := by decide

/-- DV1 (permissive) and DV2 (strict: PAD, nothing written). -/
theorem test_dec_modes :
    onNext (fun t => (t.wide 1, t.statusWord)) (exec (.dec 1) (withText "01ARZ3NDEKTSV4RRFFQ69G5FAV" 0)) =
      some (⟨0x00558F8EAD74F59D, 0x93187BEE64C0AF56⟩, 0x00000000) ∧
    onNext (fun t => (t.wide 1, t.statusWord)) (exec (.dec 1) (withText "01ARZ3NDEKTSV4RRFFQ69G5FAV" 1)) =
      some (⟨0, 0⟩, 0x00000310) := by decide

/-- DV19 (25 characters), DV28 (the lowest of three illegal characters) and DV22 (27 characters). -/
theorem test_dec_lengths_and_chars :
    onNext (fun t => (t.wide 1, t.statusWord)) (exec (.dec 1) (withText "01ARZ3NDEKTSV4RRFFQ69G5FA" 1)) =
      some (⟨0x000AB1F1D5AE9EB3, 0xB2630F7DCC9815EA⟩, 0x00000000) ∧
    onNext State.statusWord (exec (.dec 1) (withText "000U00000000000000000000-U" 0)) =
      some 0x00030210 ∧
    onNext State.statusWord (exec (.dec 1) (withText "01ARZ3NDEKTSV4RRFFQ69G5FAVX" 0)) =
      some 0x00000110 := by decide

/-- CV5: byte 0 decides, and CV4 swapped. -/
theorem test_cmp :
    onNext State.r (exec (.cmp 0 1) (loaded ⟨0x0100000000000000, 0⟩
      ⟨0x00FFFFFFFFFFFFFF, 0xFFFFFFFFFFFFFFFF⟩ ⟨0, 0⟩)) = some 0x00000001 ∧
    onNext State.r (exec (.cmp 0 1) (loaded wx ⟨0x0123456789ABCDEF, 0xFEDCBA9876543211⟩ ⟨0, 0⟩)) =
      some 0xFFFFFFFF := by decide

/-- HV7 and HV10, for both initial values: unsigned bytes, byte 0 first. -/
theorem test_hash :
    hashFrom 0 0xFFFFFFFFFFFFFFFFFFFFFFFFFFFFFFFF = 0xADA3DF00 ∧
    hashFrom 1 0xFFFFFFFFFFFFFFFFFFFFFFFFFFFFFFFF = 0xFE4DBD01 ∧
    hashFrom 0 0x000102030405060708090A0B0C0D0E0F = 0xE4C87008 := by decide

/-- DEC_TABLE has 60 entries (41_base32_codec.md R140). -/
theorem test_dec_entries : decEntries.length = 60 := by decide

/-- An illegal word is a completed command with an error status: IV1 and IV9. -/
theorem test_illegal_status :
    onNext State.statusWord (step (pendingWord 0x00000000 0)) = some 0x00000140 ∧
    onNext State.statusWord (step (pendingWord 0x08400100 0)) = some 0x00000240 := by decide

/-- The first step after reset runs the word put where the unit takes it (log 10). -/
theorem test_withFetchWord :
    onNext State.tlen (step ((loaded wx wx wx).withFetchWord 32 0x40000000)) = some 26 ∧
    onNext State.unwrittenRead (step (State.reset.withFetchWord 32 0x40000000)) = some true ∧
    onNext State.statusWord (step (State.reset.withFetchWord 32 0x44000000)) = some 0x00000110 := by
  decide

/-- The faulting variant `cmd hash w3` on a fresh unit: UnwrittenRead is recorded, and there is no result
(log 2). A DEC of a wrong length reads nothing. -/
theorem test_unwritten_recorded :
    onNext (fun t => (t.unwrittenRead, t.rWritten, t.freeUses)) (exec (.hash 3) State.reset) =
      some (true, false, 1) ∧
    onNext State.unwrittenRead (exec (.dec 0) State.reset) = some false := by decide

/-- ENC of an unwritten source produces no result (70_reset_and_hazards.md R231; 20_memory.md R61): TLEN,
STATUS and the characters stay, and the characters' marks are gone. -/
theorem test_enc_unwritten :
    onNext (fun t => (t.tlen, t.statusWord, t.tWritten[25], t.text 24))
      (exec (.enc 3) { withText "000U00000000000000000000" 0 with status := ⟨1, 1, 0⟩ }) =
      some (24, 0x00000110, false, codes "000U00000000000000000000") := by decide

/-- The faulting variant of P1: a read of word 6 of T after an ENC finds its two written characters
(`AV`, here written by the host) and records UnwrittenRead (log 2). -/
theorem test_unwritten_host_read :
    ((withText "01ARZ3NDEKTSV4RRFFQ69G5FAV" 0).hostRead (.text 6)).unwrittenRead = true ∧
    ((withText "01ARZ3NDEKTSV4RRFFQ69G5FAV" 0).readByte 24,
      (withText "01ARZ3NDEKTSV4RRFFQ69G5FAV" 0).readByte 25) = (0x41, 0x56) := by decide

/-! ### The window -/

/-- X in words, and a text word (95_test_vectors.md section 2.8). -/
theorem test_packing :
    [0, 1, 2, 3].map (wideWord wx) = [0x76543210, 0xFEDCBA98, 0x89ABCDEF, 0x01234567] ∧
    textWord (withText "01ARZ3NDEKTSV4RRFFQ69G5FAV" 0).t 0 = 0x52413130 ∧
    textWord (withText "01ARZ3NDEKTSV4RRFFQ69G5FAV" 0).t 6 = 0x00005641 := by decide

/-- The faulting variant of P3: a CMD write while BUSY = 1 (70_reset_and_hazards.md R241). -/
theorem test_hazard : step (busyHosting [cmdOp (.hi 3 0)]) = .fault .hostHazard := by
  simp [step, busyHosting, hosting, hostTurn, State.tick, cmdOp, writeOp, hostWriteTurn, State.access,
    accessOffset_base, State.busy]

/-- The faulting variant of a byte write (20_memory.md R54). -/
theorem test_byte_write : step (hosting [.write (Config.base + 0x80) 1 0]) = .fault .hostAccessFault := by
  simp [step, hosting, State.reset, hostTurn, hostWriteTurn, State.access, accessOffset]

/-! ### The assembler (30_encoding.md R81, R82) -/

theorem test_assemble :
    assembleLine "SHL w0, w1, 0x40 ; up a limb".toList = some [.shl 0 1 64] ∧
    assembleLine "shl w0, w1, 256".toList = none ∧ assembleLine "ori w0, w4, 1".toList = none ∧
    assembleLine "li w1, w2, 65535".toList = some [.shr 1 2 128, .ori 1 1 0xFFFF] := by decide

/-- A pseudo-instruction of two commands waits between their CMD writes (log 19). -/
theorem test_cmdLine : cmdLine "li w1, w2, 7".toList =
    some [cmdOp (.shr 1 2 128), .wait, cmdOp (.ori 1 1 7)] := by rfl

/-! ### Witnesses: states and operands that meet the hypotheses of the statements -/

theorem witness_DecodeEncode : (Instr.shl 3 2 255).wellFormed = true := by decide

theorem witness_EncodeDecode : decode 0x1040FFFF = .ok (.ori 0 1 0xFFFF) := by decide

theorem witness_PendingWordDecoded :
    (pendingWord 0xFFFFFFFF 0).pending = some ⟨0xFFFFFFFF, 0⟩ ∧
    (0xFFFFFFFF : Word).toNat / 2 ^ 26 ∉ commandRows.map (·.1) ∧
    (0x64100000 : Word).toNat / 2 ^ 26 = 0x19 ∧
    (0x64100000 : Word) &&& 0xFF3FFFFF ≠ 0x64000000 ∧
    (0x64C00000 : Word) &&& 0xFF3FFFFF = 0x64000000 := by decide

theorem witness_PseudoInstructions : 65535 ≤ 65535 ∧ 31 ≤ 31 ∧
    (loaded wx wx wx).wideWritten 0 = true := by decide

theorem witness_StepRunsDecoded : ∃ (s : State) (p : Pending) (i : Instr), s.pending = some p ∧
    p.latLeft = 0 ∧ decode p.command = .ok i :=
  ⟨pendingWord 0x40000000 0, ⟨0x40000000, 0⟩, .enc 0, rfl, rfl, by decide⟩

theorem witness_StepGivesHostItsTurn : State.reset.pending = none ∧
    (pendingWord 0 1).pending = some ⟨0, 0 + 1⟩ := by decide

theorem witness_WaitSeesCompletion : (busyHosting [.wait]).pending = some ⟨0x40000000, 1⟩ ∧
    (busyHosting [.wait]).host = .wait :: [] := by decide

theorem witness_IssuedCommandCompletes : (hosting [writeOp 0x050 0, .wait]).pending = none ∧
    (hosting [writeOp 0x050 0, .wait]).host = writeOp 0x050 0 :: .wait :: [] := ⟨rfl, rfl⟩

theorem witness_EndedRunStays : State.reset.Quiet ∧
    (State.reset.noteUse false).unwrittenRead = true ∧
    core.run 0 (State.reset.noteUse false) = .next (State.reset.noteUse false) :=
  ⟨⟨rfl, rfl⟩, by decide, rfl⟩

theorem witness_ShlResult_ShrResult : 255 ≤ 255 ∧ 128 ≤ 255 := by decide

theorem witness_WideCommandsFrame_window : State.reset.windowWritten .tlen = true ∧
    (loaded wx wx wx).windowWritten (.wide 2 3) = true := by decide

theorem witness_WideCommandsFrame : Instr.lo 1 0 ∈ [Instr.make 1 0 2, .shl 1 0 0, .shr 1 0 0, .ori 1 0 0,
    .orx 1 0 2, .hi 1 0, .lo 1 0] ∧ WindowReg.wide 0 3 ≠ .status ∧
    ∀ j, WindowReg.wide 0 3 ≠ .wide 1 j := by decide

theorem witness_WideIdentities : 128 ≤ 128 ∧ 127 + 128 ≤ 255 := by decide

theorem witness_EncTableAsListed : (30 : BitVec 5) < 31 := by decide

theorem witness_DecLengthError : (withText "000000000000000000000000" 0).tlen.toNat ≠ 25 ∧
    (withText "000000000000000000000000" 0).tlen.toNat ≠ 26 := by decide

/-- DV27 at the last index, DV29 with 25 characters, DV31 at index 0. -/
theorem witness_DecCharError :
    ((withText "0000000000000000000000000U" 0).tlen.toNat = 26 ∧
      (withText "0000000000000000000000000U" 0).textWritten 26 = true ∧
      FirstInvalidAt (withText "0000000000000000000000000U" 0) 25) ∧
    ((withText "000000000000000000000000-" 0).tlen.toNat = 25 ∧
      (withText "000000000000000000000000-" 0).textWritten 25 = true ∧
      FirstInvalidAt (withText "000000000000000000000000-" 0) 24) ∧
    FirstInvalidAt (withText "UUUUUUUUUUUUUUUUUUUUUUUUUU" 1) 0 := by
  refine ⟨⟨by decide, by decide, ?_⟩, ⟨by decide, by decide, ?_⟩, ?_⟩ <;>
    exact ⟨by decide, by decide⟩

/-- The digits of DV13's text: 25 zeros and a 1. -/
theorem witness_DecStrictMode_pad :
    TextDigits (withText "00000000000000000000000001" 1) 26 (List.replicate 25 0 ++ [1]) ∧
    (withText "00000000000000000000000001" 1).tlen.toNat = 26 ∧
    (withText "00000000000000000000000001" 1).strict = 1 ∧
    radix32 (List.replicate 25 0 ++ [1]) % 4 ≠ 0 := by
  refine ⟨⟨by decide, by decide⟩, by decide, by decide, by decide⟩

/-- DV12 (permissive), DV14 (strict, no discarded bit) and DV18 (25 characters, strict). -/
theorem witness_DecStrictMode_accepts :
    (TextDigits (withText "00000000000000000000000001" 0) 26 (List.replicate 25 0 ++ [1]) ∧
      (withText "00000000000000000000000001" 0).strict = 0) ∧
    (TextDigits (withText "00000000000000000000000004" 1) 26 (List.replicate 25 0 ++ [4]) ∧
      (withText "00000000000000000000000004" 1).strict = 1 ∧
      radix32 (List.replicate 25 0 ++ [4]) % 4 = 0) ∧
    (TextDigits (withText "ZZZZZZZZZZZZZZZZZZZZZZZZZ" 1) 25 (List.replicate 25 31) ∧
      (withText "ZZZZZZZZZZZZZZZZZZZZZZZZZ" 1).tlen.toNat = 25) := by
  refine ⟨⟨⟨by decide, by decide⟩, by decide⟩, ⟨⟨by decide, by decide⟩, by decide, by decide⟩,
    ⟨⟨by decide, by decide⟩, by decide⟩⟩

/-- DV14 in strict mode, and DV18 for the 25-character clause. -/
theorem witness_DecResult_DecEncCanonical :
    TextDigits (withText "00000000000000000000000004" 1) 26 (List.replicate 25 0 ++ [4]) ∧
    (withText "00000000000000000000000004" 1).tlen.toNat = 26 ∧
    radix32 (List.replicate 25 0 ++ [4]) % 4 = 0 := by
  refine ⟨⟨by decide, by decide⟩, by decide, by decide⟩

/-- A written text, and a length that needs none. -/
theorem witness_DecErrorsExactly :
    (withText "000000000000000000000000-" 0).textWritten 25 = true ∧
    (withText "000000000000000000000000-" 0).tlen.toNat = 25 ∧
    ¬ (State.reset.tlen.toNat = 25 ∨ State.reset.tlen.toNat = 26) := by decide

theorem witness_ShortDecodeIsShiftChain : (List.replicate 25 (31 : BitVec 5)).length = 25 := by decide

theorem witness_CompareIsUnsigned :
    idByte 0 0 < idByte (0x80 <<< 120) 0 ∧ (∀ i, i < 15 → idByte 0 i = idByte 1 i) ∧
    idByte 0 15 < idByte 1 15 := by decide

/-- Written sources for the commands' results, the last register among them. -/
theorem witness_written_sources :
    (loaded wx wx wx).wideWritten 0 = true ∧ (loaded wx wx wx).wideWritten 2 = true ∧
    (State.reset.writeWide 3 wx).wideWritten 3 = true := by decide

theorem witness_CmpResult : (⟨0, 0⟩ : Wide).value < (⟨0, 1⟩ : Wide).value ∧
    (⟨0, 1⟩ : Wide).value = (⟨0, 1⟩ : Wide).value := by decide

theorem witness_CompareStrictTotalOrder : compareWide ⟨0, 0⟩ ⟨0, 1⟩ = .lt ∧
    compareWide ⟨0, 1⟩ ⟨1, 0⟩ = .lt ∧ compareWide wx wx = .eq := by decide

theorem witness_RegisterMap : 0x054 % 4 = 0 ∧ 0x054 ≤ 0x07C ∧ 0x0FC % 4 = 0 ∧ 0x0A0 ≤ 0x0FC := by decide

theorem witness_packing_clauses : (15 : Nat) / 4 = 3 - (0 : Fin 4).val ∧ 31 / 4 = (7 : Fin 8).val := by
  decide

/-- One witness per clause of the host's writes, at the ends of each range of offsets. -/
theorem witness_HostWriteEffects :
    (∀ off v, (hosting [writeOp off v]).pending = none ∧
      (hosting [writeOp off v]).host = writeOp off v :: []) ∧
    0x03C = 0x10 * (3 : Fin 4).val + 4 * (3 : Fin 4).val ∧ 0x09C = 0x080 + 4 * (7 : Fin 8).val ∧
    0x07C % 4 = 0 ∧ 0x0A0 % 4 = 0 :=
  ⟨fun _ _ => ⟨rfl, rfl⟩, by decide, by decide, by decide, by decide⟩

/-- One witness per clause of the host's reads, with the word marked where the clause needs it. -/
theorem witness_HostReadReturns :
    (∀ off, (hosting [readOp off]).pending = none ∧ (hosting [readOp off]).host = readOp off :: []) ∧
    ({ loaded wx wx wx with host := [readOp 0x02C] } : State).wWritten[2][3] = true ∧
    (∀ j : Fin 32, j.val / 4 = 5 →
      ({ withText "01ARZ3NDEKTSV4RRFFQ69G5FAV" 0 with host := [readOp 0x094] } : State).tWritten[j] =
        true) ∧
    ({ State.reset.writeResult 0 with host := [readOp 0x040] } : State).rWritten = true :=
  ⟨fun _ => ⟨rfl, rfl⟩, by decide, by decide, rfl⟩

theorem witness_ReadAfterWrite :
    (hosting [writeOp 0x03C 1, readOp 0x03C]).pending = none ∧
    (hosting [writeOp 0x03C 1, readOp 0x03C]).host = writeOp 0x03C 1 :: readOp 0x03C :: [] ∧
    0x03C % 4 = 0 ∧ 0x03C < 0x040 ∧ 0x080 ≤ 0x09C ∧ 0x09C < 0x0A0 :=
  ⟨rfl, rfl, by decide, by decide, by decide, by decide⟩

/-- A byte access, a misaligned one and one just past the window. -/
theorem witness_IllFormedAccessFaults :
    ¬ (1 = 4 ∧ ∃ off, off < 256 ∧ off % 4 = 0 ∧ Config.base + 0x80 = Config.base + off) ∧
    ¬ (4 = 4 ∧ ∃ off, off < 256 ∧ off % 4 = 0 ∧ Config.base + 2 = Config.base + off) ∧
    ¬ (4 = 4 ∧ ∃ off, off < 256 ∧ off % 4 = 0 ∧ Config.base + 256 = Config.base + off) := by
  refine ⟨by simp, ?_, ?_⟩ <;> rintro ⟨-, off, h1, h2, h3⟩ <;> omega

theorem witness_BusyAccessIsHazard :
    (busyHosting [writeOp 0x04C 0]).pending = some ⟨0x40000000, 0 + 1⟩ ∧
    (busyHosting [writeOp 0x04C 0]).host = writeOp 0x04C 0 :: [] ∧
    (busyHosting [readOp 0x0FC]).host = readOp 0x0FC :: [] ∧ 0x0FC ≠ 0x04C :=
  ⟨rfl, rfl, rfl, by decide⟩

theorem witness_BusyStatusRead :
    (busyHosting [readOp 0x04C]).pending = some ⟨0x40000000, 0 + 1⟩ ∧
    (busyHosting [readOp 0x04C]).host = readOp 0x04C :: [] ∧
    ∃ t, exec (.enc 0) State.reset = .next t := ⟨rfl, rfl, _, rfl⟩

/-- With a command pending, and on an idle unit. -/
theorem witness_ResetDiscardsPending :
    ((∃ c n, (busyHosting [.reset]).pending = some ⟨c, n + 1⟩) ∧
      (busyHosting [.reset]).host = .reset :: []) ∧
    (hosting [.reset]).pending = none ∧ (hosting [.reset]).host = .reset :: [] :=
  ⟨⟨⟨0x40000000, 0, rfl⟩, rfl⟩, rfl, rfl⟩

theorem witness_StepKeepsStatusLegal : State.reset.status.Legal ∧
    ∃ t, step State.reset = .next t := ⟨.inl rfl, _, rfl⟩

theorem witness_ErrorsArePrecise : ∃ t, exec (.dec 0) State.reset = .next t ∧
    t.freeUses = State.reset.freeUses ∧ t.status ≠ Status.ok := ⟨_, rfl, by decide, by decide⟩

theorem witness_ConfigChangesOnlyByHost :
    ∃ t, step (hosting [writeOp 0x048 1]) = .next t ∧ t.strict ≠ (hosting [writeOp 0x048 1]).strict :=
  ⟨_, step_writeOp rfl rfl (by decide) (by decide), by decide⟩

theorem witness_ResultChangesOnlyByCmpHash :
    ∃ t, step { loaded ⟨0, 1⟩ ⟨0, 0⟩ ⟨0, 0⟩ with pending := some ⟨0x60100000, 0⟩ } = .next t ∧
      t.r ≠ (loaded ⟨0, 1⟩ ⟨0, 0⟩ ⟨0, 0⟩).r := ⟨_, rfl, by decide⟩

theorem witness_WideChangesOnlyByDestination :
    ∃ t, step (hosting [writeOp 0x03C 1]) = .next t ∧ t.wide 3 ≠ (hosting [writeOp 0x03C 1]).wide 3 :=
  ⟨_, step_writeOp rfl rfl (by decide) (by decide), by decide⟩

theorem witness_TextChangesOnlyByEnc :
    ∃ t, step ((loaded wx wx wx).withFetchWord 32 0x40000000) = .next t ∧ t.tlen ≠ (loaded wx wx wx).tlen :=
  ⟨_, rfl, by decide⟩

theorem witness_MarksOnlyGrow :
    ∃ t, step (loaded wx wx wx) = .next t ∧ (loaded wx wx wx).wWritten[2][3] = true ∧
      ¬ (loaded wx wx wx).HostResets ∧ t.freeUses = (loaded wx wx wx).freeUses :=
  ⟨_, rfl, by decide, (by rintro ⟨rest, h⟩; cases h), rfl⟩

/-- The record's clause, across a reset. -/
theorem witness_MarksOnlyGrow_record :
    ∃ t, step ((hosting [.reset]).noteUse false) = .next t ∧
      ((hosting [.reset]).noteUse false).unwrittenRead = true := ⟨_, rfl, by decide⟩

/-- Unwritten and written sources, and DEC of unwritten characters. -/
theorem witness_UnwrittenUseRecorded :
    State.reset.wideWritten 3 = false ∧ (loaded wx wx wx).wideWritten 2 = true ∧
    ({ State.reset with tlen := 25 } : State).tlen.toNat = 25 ∧
    ∃ j : Fin 32, j.val < ({ State.reset with tlen := 25 } : State).tlen.toNat ∧
      State.reset.tWritten[j] = false := ⟨by decide, by decide, by decide, 24, by decide⟩

/-- Host reads of unwritten state: the last word of W, R, and a word of T two bytes of which are written
(the first faulting variant of 95_test_vectors.md: word 6 after an ENC). -/
theorem witness_UnwrittenUseRecorded_reads :
    (∀ off, (hosting [readOp off]).pending = none ∧ (hosting [readOp off]).host = readOp off :: []) ∧
    0x03C = 0x10 * (3 : Fin 4).val + 4 * (3 : Fin 4).val ∧
    (hosting [readOp 0x03C]).wWritten[3][3] = false ∧ (hosting [readOp 0x040]).rWritten = false ∧
    0x098 = 0x080 + 4 * (6 : Fin 8).val ∧
    (∃ j : Fin 32, j.val / 4 = 6 ∧ (withText "01ARZ3NDEKTSV4RRFFQ69G5FAV" 0).tWritten[j] = false) ∧
    ∃ j : Fin 32, j.val / 4 = 6 ∧ (withText "01ARZ3NDEKTSV4RRFFQ69G5FAV" 0).tWritten[j] = true :=
  ⟨fun _ => ⟨rfl, rfl⟩, by decide, by decide, rfl, by decide, ⟨26, by decide⟩, ⟨24, by decide⟩⟩

/-- The fault clause: a hazard in a state that agrees with itself. -/
theorem witness_UnwrittenNeverObserved_fault :
    AgreeOnWritten (busyHosting [cmdOp (.hi 3 0)]) (busyHosting [cmdOp (.hi 3 0)]) ∧
    step (busyHosting [cmdOp (.hi 3 0)]) = .fault .hostHazard :=
  ⟨⟨rfl, rfl, rfl, fun _ _ _ => rfl, fun _ _ => rfl, fun _ => rfl, rfl, rfl, rfl, rfl, rfl, rfl, rfl, rfl⟩,
    test_hazard⟩

/-- Two states that differ in W3, which neither has written, and a step of the first. -/
theorem witness_UnwrittenNeverObserved :
    AgreeOnWritten State.reset { State.reset with w := State.reset.w.set 3 ⟨1, 1⟩ } ∧
    ∃ t, step State.reset = .next t := by
  refine ⟨⟨rfl, rfl, rfl, ?_, ?_, ?_, rfl, rfl, rfl, rfl, rfl, rfl, rfl, rfl⟩, _, rfl⟩
  · intro i k h
    revert h
    revert i k
    decide
  · intro _ _; rfl
  · intro h; cases h

end Sys2Proof.Tests
end

/-! PROOFS. Statements of 00_scope.md: whose turn a step is, and that an issued command completes
(00_scope.md R17, R18; 70_reset_and_hazards.md R240, R243). -/

namespace Sys2Proof.Machine

/-! ### A step while a command is pending -/

/-- With latency left, one step of it passes and the host has its turn (log 4). -/
theorem step_latency {s : State} {c : Word} {n : Nat} (hp : s.pending = some ⟨c, n + 1⟩) :
    step s = hostTurn { s with pending := some ⟨c, n⟩ } := by
  simp [step, State.tick, hp]

/-- With no latency left the command completes, accepted or rejected: nothing is pending any more, and
what every command keeps is kept. -/
theorem step_completes {s : State} {c : Word} (hp : s.pending = some ⟨c, 0⟩) :
    ∃ t, step s = .next t ∧ t.pending = none ∧ Keeps s t := by
  have hs : step s = runCommand c s := by simp [step, hp]
  rw [hs, runCommand]
  cases decode c with
  | ok i => exact exec_common i s
  | error e => exact ⟨s.rejectCommand e, rfl, rfl, by simp [Keeps, State.rejectCommand]⟩

/-! ### Polls of a waiting host (70_reset_and_hazards.md R242, R243) -/

/-- A poll while latency is left reads BUSY = 1 with the old outcome, and the host waits on. -/
theorem step_wait_latency {s : State} {c : Word} {n : Nat} {rest : List HostOp}
    (hp : s.pending = some ⟨c, n + 1⟩) (hh : s.host = .wait :: rest) :
    step s = .next { s with pending := some ⟨c, n⟩, reads := s.status.word true :: s.reads } := by
  rw [step_latency hp]
  simp [hostTurn, hh, State.poll_eq, State.statusWord, State.busy]

/-- A poll with nothing pending reads BUSY = 0 with the last outcome, and ends the wait. -/
theorem step_wait_idle {s : State} {rest : List HostOp} (hp : s.pending = none)
    (hh : s.host = .wait :: rest) :
    step s = .next { s with host := rest, reads := s.status.word false :: s.reads } := by
  simp [step_idle hp, hostTurn, hh, State.poll_eq, State.statusWord, State.busy, hp]

/-- The waiting host polls once in each step of the latency, and changes nothing else. -/
theorem run_wait_latency {s : State} {c : Word} {n : Nat} {rest : List HostOp} (k : Nat)
    (hp : s.pending = some ⟨c, n⟩) (hh : s.host = .wait :: rest) :
    core.run (n + k) s = core.run k { s with
      pending := some ⟨c, 0⟩, reads := List.replicate n (s.status.word true) ++ s.reads } := by
  induction n generalizing s with
  | zero => simp [← hp]
  | succ n ih =>
    have hpolled := ih (s := { s with
      pending := some ⟨c, n⟩, reads := s.status.word true :: s.reads }) rfl hh
    rw [Nat.add_right_comm, run_succ _ (step_wait_latency hp hh)]
    simpa [List.replicate_succ'] using hpolled

/-- A wait ends in the two steps after the latency: the command completes, and one more poll reads the
new STATUS with BUSY = 0. -/
theorem run_wait_completes {s : State} {c : Word} {n : Nat} {rest : List HostOp}
    (hp : s.pending = some ⟨c, n⟩) (hh : s.host = .wait :: rest) :
    ∃ t, core.run (n + 2) s = .next t ∧ t.pending = none ∧ t.host = rest ∧
      t.reads.head? = some (t.status.word false) := by
  obtain ⟨t, hstep, hnone, hkeeps⟩ := step_completes (s := { s with
    pending := some ⟨c, 0⟩, reads := List.replicate n (s.status.word true) ++ s.reads }) rfl
  obtain ⟨-, hhost, -⟩ := hkeeps
  have hwait : t.host = .wait :: rest := hhost.trans hh
  refine ⟨{ t with host := rest, reads := t.status.word false :: t.reads }, ?_, hnone, rfl, rfl⟩
  rw [run_wait_latency 2 hp hh, run_succ 1 hstep, run_succ 0 (step_wait_idle hnone hwait), run_zero]

/-! ### The statements -/

/-- Settles O9: after the CMD write the host waits through the latency, the completion and one last
poll. -/
theorem issuedCommandCompletes : Obligations.IssuedCommandCompletes := by
  intro s c rest hp hh
  have hissue : step s = .next ({ s with host := .wait :: rest }.issue c) :=
    step_writeOp hp hh (by decide) (by decide)
  rw [run_succ (Config.lat c + 2) hissue]
  exact run_wait_completes (State.issue_pending _ c) (State.issue_host _ c)

/-- Settles O7: both cases are the step's own, with nothing pending and with latency left. -/
theorem stepGivesHostItsTurn : Obligations.StepGivesHostItsTurn :=
  fun _ => ⟨step_idle, fun _ _ => step_latency⟩

end Sys2Proof.Machine

/-! PROOFS. Statements of 10_state.md: which steps change W, T, TLEN, R, CONFIG and the written marks, that
each use of unwritten state is recorded, and that its content cannot be observed (10_state.md R20 to R34;
70_reset_and_hazards.md R231, R234). -/

namespace Sys2Proof.Machine

/-! ### Everything a command can do -/

/-- The states in which command `i`, run on `s`, may end: with its result in its destination, with an
error in STATUS (DEC), or without a result (10_state.md R20; 60_exceptions.md R204, R206;
70_reset_and_hazards.md R231). -/
inductive CommandEnd (s : State) : Instr → State → Prop where
  | wide {i : Instr} {rd : Reg} (hd : destinationOf i = some rd) (x : Wide) :
      CommandEnd s i (s.finishWide rd x)
  | error {i : Instr} {rd : Reg} (hd : destinationOf i = some rd) (e : ErrorKind) (d : BitVec 4)
      (k : BitVec 5) : CommandEnd s i (s.raise e d k)
  | wideLost {i : Instr} {rd : Reg} (hd : destinationOf i = some rd) :
      CommandEnd s i (s.loseWide rd).abandon
  | text (a : Reg) (v : BitVec 128) : CommandEnd s (.enc a) (s.finishText (encodeText v))
  | textLost (a : Reg) : CommandEnd s (.enc a) (s.loseText 26).abandon
  | result {i : Instr} (hi : (∃ a b, i = .cmp a b) ∨ ∃ a, i = .hash a) (v : Word) :
      CommandEnd s i (s.finishResult v)
  | resultLost {i : Instr} (hi : (∃ a b, i = .cmp a b) ∨ ∃ a, i = .hash a) :
      CommandEnd s i s.loseResult.abandon

/-- DEC finishes with a value or with an error (41_base32_codec.md R143). -/
theorem CommandEnd.decode (s : State) {i : Instr} {rd : Reg} (hd : destinationOf i = some rd)
    (d : Decoded) : CommandEnd s i (s.finishDecode rd d) := by
  cases d with
  | value v => exact .wide hd (Wide.ofValue v)
  | badLength => exact .error hd _ _ _
  | badChar k => exact .error hd _ _ _
  | badPad => exact .error hd _ _ _

/-- A command that answers a next state has ended in one of its ways. -/
theorem exec_end {i : Instr} {s t : State} (h : exec i s = .next t) : CommandEnd s i t := by
  cases i with
  | enc a =>
    obtain ⟨-, rfl⟩ | ⟨-, rfl⟩ := endCommand_cases h
    · exact .text a _
    · exact .textLost a
  | dec rd =>
    obtain ⟨-, rfl⟩ | ⟨-, rfl⟩ := endCommand_cases h
    · exact .decode s rfl _
    · exact .wideLost rfl
  | cmp a b =>
    obtain ⟨-, rfl⟩ | ⟨-, rfl⟩ := endCommand_cases h
    · exact .result (.inl ⟨a, b, rfl⟩) _
    · exact .resultLost (.inl ⟨a, b, rfl⟩)
  | hash a =>
    obtain ⟨-, rfl⟩ | ⟨-, rfl⟩ := endCommand_cases h
    · exact .result (.inr ⟨a, rfl⟩) _
    · exact .resultLost (.inr ⟨a, rfl⟩)
  | _ =>
    obtain ⟨-, rfl⟩ | ⟨-, rfl⟩ := endCommand_cases h
    · exact .wide rfl _
    · exact .wideLost rfl

/-! ### What a write of the window changes (20_memory.md R58, R60) -/

/-- The host cannot write R (10_state.md R26). -/
@[simp] theorem State.windowWrite_r (s : State) (reg : WindowReg) (v : Word) :
    (s.windowWrite reg v).r = s.r := by
  cases reg <;> rfl

@[simp] theorem State.windowWrite_rWritten (s : State) (reg : WindowReg) (v : Word) :
    (s.windowWrite reg v).rWritten = s.rWritten := by
  cases reg <;> rfl

@[simp] theorem State.windowWrite_unwrittenRead (s : State) (reg : WindowReg) (v : Word) :
    (s.windowWrite reg v).unwrittenRead = s.unwrittenRead := by
  cases reg <;> rfl

@[simp] theorem State.windowWrite_freeUses (s : State) (reg : WindowReg) (v : Word) :
    (s.windowWrite reg v).freeUses = s.freeUses := by
  cases reg <;> rfl

/-- Only a write of CONFIG changes it. -/
theorem State.windowWrite_strict_changes {s : State} {reg : WindowReg} {v : Word}
    (h : (s.windowWrite reg v).strict ≠ s.strict) : reg = .config := by
  cases reg with
  | config => rfl
  | _ => exact absurd rfl h

/-- Only a write of one of its words changes a wide register. -/
theorem State.windowWrite_wide_changes {s : State} {reg : WindowReg} {v : Word} {r : Reg}
    (h : (s.windowWrite reg v).wide r ≠ s.wide r) : ∃ k, reg = .wide r k := by
  cases reg with
  | wide i k =>
    by_cases hi : i = r
    · exact ⟨k, by rw [hi]⟩
    · have hv : i.val ≠ r.val := fun e => hi (Fin.ext e)
      exact absurd (by simp [State.windowWrite, State.wide, hv]) h
  | _ => exact absurd rfl h

/-- Only a write of a word of T or of TLEN changes T or TLEN. -/
theorem State.windowWrite_text_changes {s : State} {reg : WindowReg} {v : Word}
    (h : (s.windowWrite reg v).t ≠ s.t ∨ (s.windowWrite reg v).tlen ≠ s.tlen) :
    (∃ m, reg = .text m) ∨ reg = .tlen := by
  cases reg with
  | text m => exact .inl ⟨m, rfl⟩
  | tlen => exact .inr rfl
  | _ => exact h.elim (absurd rfl) (absurd rfl)

/-! ### Everything a step can do -/

/-- The registers, their marks and CONFIG are unchanged, and the record of UnwrittenRead has not
shrunk. -/
def SameRegisters (s t : State) : Prop :=
  (∀ r, SameWide r s t) ∧ SameText s t ∧ SameResult s t ∧ t.strict = s.strict ∧
    (s.unwrittenRead = true → t.unwrittenRead = true) ∧ s.freeUses ≤ t.freeUses

/-- What a step from `s` may come to: a command has run, the unit was reset, the host has written a word
of the window, or no register has changed. -/
inductive StepEffect (s : State) : State → Prop where
  | command {i : Instr} {t : State} (hr : s.Runs i) (he : CommandEnd s i t) : StepEffect s t
  | reset (hr : s.HostResets) (pd : Option Pending) (ops : List HostOp) :
      StepEffect s { s with pending := pd, host := ops }.resetUnit
  | write {off : Nat} (hw : s.HostWrites off) (h : off < 256) (h4 : off % 4 = 0)
      (pd : Option Pending) (ops : List HostOp) (v : Word) :
      StepEffect s ({ s with pending := pd, host := ops }.windowWrite (windowReg off) v)
  | quiet {t : State} (h : SameRegisters s t) : StepEffect s t

/-- STATUS, the pending command and the host's view are no registers. -/
theorem sameRegisters_of_control (s : State) (st : Status) (pd : Option Pending) (ops : List HostOp)
    (rs : List Word) : SameRegisters s { s with status := st, pending := pd, host := ops, reads := rs } :=
  ⟨fun _ => ⟨rfl, rfl⟩, ⟨rfl, rfl, rfl⟩, ⟨rfl, rfl⟩, rfl, id, le_rfl⟩

/-- A host read changes no register (20_memory.md R62). -/
theorem sameRegisters_hostRead (s : State) (pd : Option Pending) (ops : List HostOp) (reg : WindowReg) :
    SameRegisters s ({ s with pending := pd, host := ops }.hostRead reg) :=
  ⟨fun _ => ⟨rfl, rfl⟩, ⟨rfl, rfl, rfl⟩, ⟨rfl, rfl⟩, rfl, fun h => by simp [State.hostRead, h],
    Nat.le_add_right _ _⟩

/-- A turn of the host, whatever latency has passed before it. -/
theorem hostTurn_effect {s t : State} {pd : Option Pending}
    (h : hostTurn { s with pending := pd } = .next t) : StepEffect s t := by
  rcases hostTurn_cases h with ⟨hh, rfl⟩ | ⟨ops, hh, rfl⟩ | ⟨ops, hh, rfl⟩ | ⟨ops, hh, rfl⟩ |
    ⟨addr, nbytes, ops, off, hh, ha, -, rfl⟩ | ⟨addr, nbytes, v, ops, off, hh, ha, -, rfl⟩
  · exact .quiet (sameRegisters_of_control s s.status pd s.host s.reads)
  · exact .quiet (sameRegisters_of_control s s.status pd ops s.reads)
  · exact .reset (s := s) ⟨ops, hh⟩ pd ops
  · rw [State.poll_eq]
    exact .quiet (sameRegisters_of_control s s.status pd _ _)
  · exact .quiet (sameRegisters_hostRead s pd ops _)
  · obtain ⟨rfl, rfl, hlt, h4⟩ := accessOffset_some.mp ha
    exact .write (s := s) ⟨v, ops, hh⟩ hlt h4 pd ops v

/-- A step that answers a next state has had one of these effects. -/
theorem step_effect {s t : State} (h : step s = .next t) : StepEffect s t := by
  rcases step_turns h with ⟨p, i, hp, hl, hd, he⟩ | ⟨e, rfl⟩ | ⟨pd, hh⟩
  · exact .command ⟨p, hp, hl, hd⟩ (exec_end he)
  · exact .quiet (sameRegisters_of_control s _ none s.host s.reads)
  · exact hostTurn_effect hh

/-! ### Who may change what -/

/-- Settles O55: of the commands only CMP and HASH write R, and no host write does. -/
theorem resultChangesOnlyByCmpHash : Obligations.ResultChangesOnlyByCmpHash := by
  intro s t h hr
  cases step_effect h with
  | command hruns he =>
    cases he with
    | result hi v =>
      obtain ⟨a, b, rfl⟩ | ⟨a, rfl⟩ := hi
      · exact .inl ⟨a, b, hruns⟩
      · exact .inr (.inl ⟨a, hruns⟩)
    | _ => exact absurd rfl hr
  | reset hreset pd ops => exact .inr (.inr hreset)
  | write hw hlt h4 pd ops v => exact absurd (State.windowWrite_r _ _ _) hr
  | quiet hq =>
    obtain ⟨-, -, ⟨hsame, -⟩, -⟩ := hq
    exact absurd hsame hr

/-- Settles O56: a command writes no wide register but its destination, and then succeeds. -/
theorem wideChangesOnlyByDestination : Obligations.WideChangesOnlyByDestination := by
  intro s t r h hr
  cases step_effect h with
  | command hruns he =>
    cases he with
    | @wide _ rd hd x =>
      by_cases hrd : r = rd
      · exact .inl ⟨_, hruns, hrd ▸ hd, rfl, rfl⟩
      · exact absurd (s.wide_writeWide_other x hrd) hr
    | _ => exact absurd rfl hr
  | reset hreset pd ops => exact .inr (.inr hreset)
  | write hw hlt h4 pd ops v =>
    obtain ⟨k, hk⟩ := State.windowWrite_wide_changes hr
    obtain ⟨-, -, -, -, hwide⟩ := windowReg_inv hlt h4
    exact .inr (.inl ⟨k, hwide r k hk ▸ hw⟩)
  | quiet hq =>
    obtain ⟨hsame, -⟩ := hq
    exact absurd (hsame r).1 hr

/-- Settles O57: of the commands only ENC writes T and TLEN. -/
theorem textChangesOnlyByEnc : Obligations.TextChangesOnlyByEnc := by
  intro s t h ht
  cases step_effect h with
  | command hruns he =>
    cases he with
    | text a v => exact .inl ⟨a, hruns⟩
    | _ => exact ht.elim (absurd rfl) (absurd rfl)
  | reset hreset pd ops => exact .inr (.inr (.inr hreset))
  | write hw hlt h4 pd ops v =>
    obtain ⟨-, htlen, -, htext, -⟩ := windowReg_inv hlt h4
    obtain ⟨m, hm⟩ | hm := State.windowWrite_text_changes ht
    · exact .inr (.inl ⟨m, htext m hm ▸ hw⟩)
    · exact .inr (.inr (.inl (htlen.mp hm ▸ hw)))
  | quiet hq =>
    obtain ⟨-, ⟨hsame, -, hlen⟩, -⟩ := hq
    exact ht.elim (absurd hsame) (absurd hlen)

/-- Settles O54: no command writes CONFIG, and of the host's writes only the one to its offset does. -/
theorem configChangesOnlyByHost : Obligations.ConfigChangesOnlyByHost := by
  intro s t h hs
  cases step_effect h with
  | command hruns he => cases he <;> exact absurd rfl hs
  | reset hreset pd ops => exact .inr hreset
  | write hw hlt h4 pd ops v =>
    obtain ⟨hconfig, -⟩ := windowReg_inv hlt h4
    exact .inl (hconfig.mp (State.windowWrite_strict_changes hs) ▸ hw)
  | quiet hq =>
    obtain ⟨-, -, -, hsame, -⟩ := hq
    exact absurd hsame hs

/-! ### Written marks and the record of UnwrittenRead -/

/-- Every written mark of `s` is set in `t` (10_state.md R34). -/
def MarksKept (s t : State) : Prop :=
  (∀ i k : Fin 4, s.wWritten[i][k] = true → t.wWritten[i][k] = true) ∧
    (∀ k : Fin 32, s.tWritten[k] = true → t.tWritten[k] = true) ∧
    (s.rWritten = true → t.rWritten = true)

/-- Where no register changes, the marks stay. -/
theorem SameRegisters.marksKept {s t : State} (h : SameRegisters s t) : MarksKept s t := by
  obtain ⟨hw, ⟨-, ht, -⟩, ⟨-, hr⟩, -⟩ := h
  exact ⟨fun i k hm => by rw [(hw i).2]; exact hm, fun k hm => by rw [ht]; exact hm,
    fun hm => hr.trans hm⟩

/-- Writing a wide register sets its marks and leaves the others. -/
theorem State.finishWide_marksKept (s : State) (rd : Reg) (x : Wide) :
    MarksKept s (s.finishWide rd x) := by
  refine ⟨fun i k hm => ?_, fun _ => id, id⟩
  by_cases hi : i = rd
  · subst hi; simp
  · exact (congrArg (·[k]) (s.marks_writeWide_other x hi)).trans hm

/-- Writing a text sets its marks and leaves the others. -/
theorem State.finishText_marksKept (s : State) (cs : List Byte) : MarksKept s (s.finishText cs) := by
  refine ⟨fun _ _ => id, fun k hm => (s.writeText_mark cs k).trans ?_, id⟩
  simp [hm]

/-- A command that used no unwritten state clears no mark. -/
theorem CommandEnd.marksKept {s t : State} {i : Instr} (h : CommandEnd s i t)
    (hf : t.freeUses = s.freeUses) : MarksKept s t := by
  cases h with
  | wide hd x => exact s.finishWide_marksKept _ x
  | error hd e d k => exact ⟨fun _ _ => id, fun _ => id, id⟩
  | text a v => exact s.finishText_marksKept _
  | result hi v => exact ⟨fun _ _ => id, fun _ => id, fun _ => rfl⟩
  | _ => exact absurd hf (Nat.succ_ne_self _)

/-- A host write sets the marks of its word and leaves the others (20_memory.md R58). -/
theorem State.windowWrite_marksKept (s : State) (reg : WindowReg) (v : Word) :
    MarksKept s (s.windowWrite reg v) := by
  cases reg with
  | wide i k =>
    refine ⟨fun i' k' hm => ?_, fun _ => id, id⟩
    simp only [State.windowWrite, Fin.getElem_fin, Vector.getElem_set]
    split
    · rename_i hi
      obtain rfl : i = i' := Fin.ext hi
      rw [Vector.getElem_set]
      split
      · rfl
      · exact hm
    · exact hm
  | text m =>
    refine ⟨fun _ _ => id, fun k hm => (markTextWord_get s.tWritten m k).trans ?_, id⟩
    rw [hm, ite_self]
  | _ => exact ⟨fun _ _ => id, fun _ => id, id⟩

/-- A command keeps the record of UnwrittenRead. -/
theorem CommandEnd.record {s t : State} {i : Instr} (h : CommandEnd s i t) :
    (s.unwrittenRead = true → t.unwrittenRead = true) ∧ s.freeUses ≤ t.freeUses := by
  cases h <;> simp

/-- Settles O58: a mark is cleared only where a command loses its destination, and that counts a use;
the record is cleared nowhere. -/
theorem marksOnlyGrow : Obligations.MarksOnlyGrow := by
  intro s t h
  cases step_effect h with
  | command hruns he =>
    obtain ⟨hrecord, hcount⟩ := he.record
    exact ⟨hrecord, hcount, fun _ hf => he.marksKept (hf.resolve_right fun hn => hn ⟨_, hruns⟩)⟩
  | reset hreset pd ops => exact ⟨id, le_rfl, fun hn => absurd hreset hn⟩
  | write hw hlt h4 pd ops v =>
    exact ⟨by simp, by simp,
      fun _ _ => State.windowWrite_marksKept { s with pending := pd, host := ops } _ v⟩
  | quiet hq =>
    have hkept := hq.marksKept
    obtain ⟨-, -, -, -, hrecord, hcount⟩ := hq
    exact ⟨hrecord, hcount, fun _ _ => hkept⟩

/-! ### What was never written cannot be observed -/

/-- The two outcomes are next states that agree on everything written, or the same fault. -/
def OutcomesAgree (x y : Host.Outcome State Fault Refusal) : Prop :=
  (∀ a', x = .next a' → ∃ b', y = .next b' ∧ AgreeOnWritten a' b') ∧ ∀ f, x = .fault f → y = .fault f

theorem OutcomesAgree.next {a b : State} (h : AgreeOnWritten a b) :
    OutcomesAgree (.next a) (.next b) :=
  ⟨fun _ e => ⟨b, rfl, by cases e; exact h⟩, fun _ e => by cases e⟩

theorem OutcomesAgree.fault (f : Fault) : OutcomesAgree (.fault f) (.fault f) :=
  ⟨fun _ e => (by cases e), fun _ e => e⟩

/-- Two commands with the same marks on their operands end alike, if they finish alike wherever these
are set. -/
theorem OutcomesAgree.endCommand {w w' : Bool} {f l f' l' : State} (hw : w = w')
    (hf : w = true → AgreeOnWritten f f') (hl : AgreeOnWritten l l') :
    OutcomesAgree (Machine.endCommand w f l) (Machine.endCommand w' f' l') := by
  subst hw
  exact ⟨fun _ h => AgreeOnWritten.endCommand hf hl h, fun _ h => by cases h⟩

section Agreement

variable {a b : State}

/-- Two states that agree have the same TLEN, CONFIG, pending command and host. -/
theorem AgreeOnWritten.control (h : AgreeOnWritten a b) :
    a.tlen = b.tlen ∧ a.strict = b.strict ∧ a.pending = b.pending ∧ a.host = b.host := by
  obtain ⟨-, -, -, -, -, -, htlen, hstrict, -, hpending, -, -, hhost, -⟩ := h
  exact ⟨htlen, hstrict, hpending, hhost⟩

/-- Two source registers have the same marks in both. -/
theorem AgreeOnWritten.widesWritten (h : AgreeOnWritten a b) (r1 r2 : Reg) :
    a.widesWritten r1 r2 = b.widesWritten r1 r2 := by
  rw [State.widesWritten, State.widesWritten, h.wideWritten r1, h.wideWritten r2]

/-- Two source registers with all their marks are the same in both. -/
theorem AgreeOnWritten.wides (h : AgreeOnWritten a b) {r1 r2 : Reg}
    (hw : a.widesWritten r1 r2 = true) : a.wide r1 = b.wide r1 ∧ a.wide r2 = b.wide r2 := by
  rw [State.widesWritten, Bool.and_eq_true] at hw
  obtain ⟨h1, h2⟩ := hw
  exact ⟨h.wide h1, h.wide h2⟩

/-- A command that makes `W[rd]` of one source. -/
theorem AgreeOnWritten.wideCommand (h : AgreeOnWritten a b) (rd r1 : Reg) (op : Wide → Wide) :
    OutcomesAgree (Machine.wideCommand rd r1 (op (a.wide r1)) a)
      (Machine.wideCommand rd r1 (op (b.wide r1)) b) :=
  .endCommand (h.wideWritten r1)
    (fun hw => by rw [h.wide hw]; exact (h.writeWide rd _).complete _) (h.loseWide rd)

/-- A command that makes `W[rd]` of two sources. -/
theorem AgreeOnWritten.wideCommand2 (h : AgreeOnWritten a b) (rd r1 r2 : Reg)
    (op : Wide → Wide → Wide) :
    OutcomesAgree (Machine.wideCommand2 rd r1 r2 (op (a.wide r1) (a.wide r2)) a)
      (Machine.wideCommand2 rd r1 r2 (op (b.wide r1) (b.wide r2)) b) :=
  .endCommand (h.widesWritten r1 r2)
    (fun hw => by rw [(h.wides hw).1, (h.wides hw).2]; exact (h.writeWide rd _).complete _)
    (h.loseWide rd)

/-- The end of a DEC, by what its decoding came to. -/
theorem AgreeOnWritten.finishDecode (h : AgreeOnWritten a b) (rd : Reg) (d : Decoded) :
    AgreeOnWritten (a.finishDecode rd d) (b.finishDecode rd d) := by
  cases d with
  | value v => exact (h.writeWide rd _).complete _
  | _ => exact h.complete _

/-- A text all of whose characters DEC reads are marked decodes alike in both: the length is the same,
and a wrong one reads no character (41_base32_codec.md R143). -/
theorem AgreeOnWritten.decodeText (h : AgreeOnWritten a b) (hw : a.decodeWritten = true) :
    Machine.decodeText a.strict a.tlen.toNat (a.text a.tlen.toNat) =
      Machine.decodeText b.strict b.tlen.toNat (b.text b.tlen.toNat) := by
  obtain ⟨hlen, hstrict, -⟩ := h.control
  rw [← hlen, ← hstrict]
  cases hok : lengthOk a.tlen.toNat with
  | false => simp [Machine.decodeText, hok]
  | true => rw [h.text (by simpa [State.decodeWritten, hok] using hw)]

/-- A command, run on both. -/
theorem AgreeOnWritten.exec (h : AgreeOnWritten a b) (i : Instr) :
    OutcomesAgree (Machine.exec i a) (Machine.exec i b) := by
  cases i with
  | make rd r1 r2 => exact h.wideCommand2 rd r1 r2 fun x y => wideMake x.lo y.lo
  | shl rd r1 n => exact h.wideCommand rd r1 fun x => wideShl x n
  | shr rd r1 n => exact h.wideCommand rd r1 fun x => wideShr x n
  | ori rd r1 k => exact h.wideCommand rd r1 fun x => wideOr x (smallImmediate k)
  | orx rd r1 r2 => exact h.wideCommand2 rd r1 r2 fun x y => wideOr x (smallRegister y)
  | hi rd r1 => exact h.wideCommand rd r1 fun x => wideHalf x.hi
  | lo rd r1 => exact h.wideCommand rd r1 fun x => wideHalf x.lo
  | enc r1 =>
    exact .endCommand (h.wideWritten r1)
      (fun hw => by rw [h.wide hw]; exact (h.writeText _).complete _) (h.loseText 26)
  | dec rd =>
    exact .endCommand h.decodeWritten
      (fun hw => by rw [h.decodeText hw]; exact h.finishDecode rd _) (h.loseWide rd)
  | cmp r1 r2 =>
    exact .endCommand (h.widesWritten r1 r2)
      (fun hw => by rw [(h.wides hw).1, (h.wides hw).2]; exact (h.writeResult _).complete _)
      h.loseResult
  | hash r1 =>
    exact .endCommand (h.wideWritten r1)
      (fun hw => by rw [h.wide hw]; exact (h.writeResult _).complete _) h.loseResult

/-- The same pending command in both keeps the agreement. -/
theorem AgreeOnWritten.setPending (h : AgreeOnWritten a b) (pd : Option Pending) :
    AgreeOnWritten { a with pending := pd } { b with pending := pd } := by
  obtain ⟨h1, h2, h3, h4, h5, h6, h7, h8, h9, -, h11, hf, h12, h13⟩ := h
  exact ⟨h1, h2, h3, h4, h5, h6, h7, h8, h9, rfl, h11, hf, h12, h13⟩

/-- A reset keeps the agreement: it leaves the same registers in both. -/
theorem AgreeOnWritten.resetUnit (h : AgreeOnWritten a b) :
    AgreeOnWritten a.resetUnit b.resetUnit := by
  obtain ⟨-, -, -, -, -, -, -, -, -, -, h11, hf, h12, h13⟩ := h
  exact ⟨rfl, rfl, rfl, fun _ _ _ => rfl, fun _ _ => rfl, fun _ => rfl, rfl, rfl, rfl, rfl, h11, hf,
    h12, h13⟩

/-- The unit is busy in both or in neither. -/
theorem AgreeOnWritten.busy (h : AgreeOnWritten a b) : a.busy = b.busy := by
  obtain ⟨-, -, hp, -⟩ := h.control
  rw [State.busy, State.busy, hp]

/-- One poll of `wait` reads the same STATUS in both. -/
theorem AgreeOnWritten.poll (h : AgreeOnWritten a b) (rest : List HostOp) :
    AgreeOnWritten (a.poll rest) (b.poll rest) := by
  unfold State.poll
  rw [h.busy]
  split
  · exact h.hostRead .status
  · exact (h.hostRead .status).setHost rest

/-- An access reaches the same word in both, or is the same fault. -/
theorem AgreeOnWritten.access (h : AgreeOnWritten a b) (addr nbytes : Nat)
    (allowed : WindowReg → Bool) : a.access addr nbytes allowed = b.access addr nbytes allowed := by
  unfold State.access
  rw [h.busy]

/-- A read by the host, from both. -/
theorem AgreeOnWritten.hostReadTurn (h : AgreeOnWritten a b) (addr nbytes : Nat) :
    OutcomesAgree (Machine.hostReadTurn addr nbytes a) (Machine.hostReadTurn addr nbytes b) := by
  unfold Machine.hostReadTurn
  rw [h.access]
  split
  · exact .next (h.hostRead _)
  · exact .fault _

/-- A write by the host, to both. -/
theorem AgreeOnWritten.hostWriteTurn (h : AgreeOnWritten a b) (addr nbytes : Nat) (v : Word) :
    OutcomesAgree (Machine.hostWriteTurn addr nbytes v a) (Machine.hostWriteTurn addr nbytes v b) := by
  unfold Machine.hostWriteTurn
  rw [h.access]
  split
  · exact .next (h.windowWrite _ v)
  · exact .fault _

/-- A turn of the host, in both. -/
theorem AgreeOnWritten.hostTurn (h : AgreeOnWritten a b) :
    OutcomesAgree (Machine.hostTurn a) (Machine.hostTurn b) := by
  obtain ⟨-, -, -, hh⟩ := h.control
  unfold Machine.hostTurn
  rw [← hh]
  split
  · exact .next h
  · exact .next (h.setHost _)
  · exact .next (h.setHost _).resetUnit
  · exact .next (h.poll _)
  · exact (h.setHost _).hostReadTurn _ _
  · exact (h.setHost _).hostWriteTurn _ _ _

/-- A pending word, run or rejected in both. -/
theorem AgreeOnWritten.runCommand (h : AgreeOnWritten a b) (c : Word) :
    OutcomesAgree (Machine.runCommand c a) (Machine.runCommand c b) := by
  unfold Machine.runCommand
  split
  · exact h.exec _
  · exact .next (h.complete _)

end Agreement

/-- Settles O60: the step is a simulation of itself up to what was never written. -/
theorem unwrittenNeverObserved : Obligations.UnwrittenNeverObserved := by
  intro a b h
  obtain ⟨-, -, hp, -⟩ := h.control
  change OutcomesAgree (step a) (step b)
  unfold step State.tick
  rw [← hp]
  split
  · exact h.hostTurn
  · split
    · exact h.runCommand _
    · exact (h.setPending _).hostTurn

/-! ### The layout of STATUS -/

/-- Two fields side by side, as a number. -/
theorem append_toNat {m n : Nat} (x : BitVec m) (y : BitVec n) :
    (x ++ y).toNat = x.toNat * 2 ^ n + y.toNat := by
  rw [BitVec.toNat_append, ← Nat.shiftLeft_add_eq_or_of_lt y.isLt, Nat.shiftLeft_eq]

/-- The STATUS word as a number (10_state.md R31). -/
theorem Status.word_toNat (st : Status) (busy : Bool) :
    (st.word busy).toNat =
      busy.toNat + 16 * st.err.toNat + 256 * st.detail.toNat + 65536 * st.index.toNat := by
  simp only [Status.word, bitOf, append_toNat, BitVec.toNat_ofBool, BitVec.ofNat_eq_ofNat,
    BitVec.toNat_ofNat, Nat.zero_mod]
  omega

/-- Settles O48: the reserved fields are 0, and BUSY is 1 exactly while a command is pending. -/
theorem statusWordLayout : Obligations.StatusWordLayout := by
  intro s
  rw [State.statusWord, Status.word_toNat, State.busy]
  cases s.pending <;> simp

/-! ### How each kind of command ends, by whether its operands are written -/

/-- The command answers; only `W[rd]`, its marks, STATUS, the pending command and the record differ.
Where its operands are written it has completed and marked `W[rd]`; else it has no result, and the marks
are clear (10_state.md R34; 70_reset_and_hazards.md R231). -/
def EndsInWide (rd : Reg) (written : Bool) (s : State) (o : Host.Outcome State Fault Refusal) : Prop :=
  ∃ t, o = .next t ∧ WideFrame rd s t ∧ (∀ j : Fin 4, t.wWritten[rd][j] = written) ∧
    if written then Completed s t else NoResult s t

/-- A command that writes `W[rd]`. -/
theorem endCommand_wide (written : Bool) (rd : Reg) (x : Wide) (s : State) :
    EndsInWide rd written s (endCommand written (s.finishWide rd x) (s.loseWide rd)) := by
  cases written with
  | true => exact ⟨_, rfl, s.finishWide_frame rd x, by simp, ⟨rfl, rfl⟩, rfl, rfl⟩
  | false =>
    obtain ⟨hres, hframe, hmarks⟩ := s.abandonWide rd
    exact ⟨_, rfl, hframe, hmarks, hres⟩

/-- The wide-integer commands of two sources (40_wide_integer.md R100, R113). -/
theorem exec_wide_twoSources (rd a b : Reg) (s : State) :
    ∀ i ∈ [Instr.make rd a b, .orx rd a b], EndsInWide rd (s.widesWritten a b) s (exec i s) := by
  intro i hi
  simp only [List.mem_cons, List.not_mem_nil, or_false] at hi
  rcases hi with rfl | rfl <;> exact endCommand_wide _ rd _ s

/-- The wide-integer commands of one source (40_wide_integer.md R103, R108, R111, R116, R118). -/
theorem exec_wide_oneSource (rd a : Reg) (n : Nat) (k : BitVec 16) (s : State) :
    ∀ i ∈ [Instr.shl rd a n, .shr rd a n, .ori rd a k, .hi rd a, .lo rd a],
      EndsInWide rd (s.wideWritten a) s (exec i s) := by
  intro i hi
  simp only [List.mem_cons, List.not_mem_nil, or_false] at hi
  rcases hi with rfl | rfl | rfl | rfl | rfl <;> exact endCommand_wide _ rd _ s

/-- A command that writes R. -/
theorem endCommand_result (written : Bool) (v : Word) (s : State) :
    ∃ t, endCommand written (s.finishResult v) s.loseResult = .next t ∧ ResultFrame s t ∧
      t.rWritten = written ∧ if written then Completed s t else NoResult s t := by
  cases written with
  | true => exact ⟨_, rfl, s.finishResult_frame v, rfl, ⟨rfl, rfl⟩, rfl, rfl⟩
  | false =>
    obtain ⟨hres, hframe, hmark⟩ := s.abandonResult
    exact ⟨_, rfl, hframe, hmark, hres⟩

/-- A command that writes 26 characters to T. -/
theorem endCommand_text (written : Bool) {cs : List Byte} (hcs : cs.length = 26) (s : State) :
    ∃ t, endCommand written (s.finishText cs) (s.loseText 26) = .next t ∧ EncFrame s t ∧
      (∀ j : Fin 32, j.val < 26 → t.tWritten[j] = written) ∧
      if written then Completed s t else NoResult s t := by
  cases written with
  | true =>
    exact ⟨_, rfl, s.finishText_frame hcs,
      fun j hj => (s.writeText_mark cs j).trans (if_pos (hcs ▸ hj)), ⟨rfl, rfl⟩, rfl, rfl⟩
  | false =>
    obtain ⟨hres, hframe, hmarks⟩ := s.abandonText
    exact ⟨_, rfl, hframe, hmarks, hres⟩

/-- The accepted lengths are 25 and 26 (41_base32_codec.md R145). -/
theorem lengthOk_iff {len : Nat} : lengthOk len = true ↔ len = 25 ∨ len = 26 := by
  simp [lengthOk]

/-- What DEC reads is written exactly where the length is wrong or each character has its mark
(41_base32_codec.md R143; 10_state.md R34). -/
theorem State.decodeWritten_iff {s : State} :
    s.decodeWritten = true ↔ ((s.tlen.toNat = 25 ∨ s.tlen.toNat = 26) →
      ∀ j : Fin 32, j.val < s.tlen.toNat → s.tWritten[j] = true) := by
  rw [← lengthOk_iff, ← State.textWritten_iff, State.decodeWritten]
  cases lengthOk s.tlen.toNat <;> simp

/-- However a decoding ends, nothing is pending and no use of unwritten state is noted. -/
theorem State.finishDecode_record (s : State) (rd : Reg) (d : Decoded) :
    (s.finishDecode rd d).pending = none ∧ (s.finishDecode rd d).unwrittenRead = s.unwrittenRead ∧
      (s.finishDecode rd d).freeUses = s.freeUses := by
  cases d <;> exact ⟨rfl, rfl, rfl⟩

/-- DEC, by whether what it reads is written. -/
theorem exec_dec_end (rd : Reg) (s : State) :
    ∃ t, exec (.dec rd) s = .next t ∧ t.pending = none ∧ WideFrame rd s t ∧
      (s.decodeWritten = false → NoResult s t ∧ ∀ j : Fin 4, t.wWritten[rd][j] = false) ∧
      (s.decodeWritten = true → t.unwrittenRead = s.unwrittenRead ∧ t.freeUses = s.freeUses) := by
  have hexec : ∃ d, exec (.dec rd) s =
    endCommand s.decodeWritten (s.finishDecode rd d) (s.loseWide rd) := ⟨_, rfl⟩
  obtain ⟨d, hd⟩ := hexec
  rw [hd]
  cases s.decodeWritten with
  | true =>
    obtain ⟨hpending, hrecord⟩ := s.finishDecode_record rd d
    exact ⟨_, rfl, hpending, s.finishDecode_frame rd d, Bool.noConfusion, fun _ => hrecord⟩
  | false =>
    obtain ⟨hres, hframe, hmarks⟩ := s.abandonWide rd
    exact ⟨_, rfl, rfl, hframe, fun _ => ⟨hres, hmarks⟩, Bool.noConfusion⟩

/-! ### Words of T -/

/-- The four bytes of a word. -/
theorem word_bytes (b3 b2 b1 b0 : Byte) :
    (b3 ++ b2 ++ b1 ++ b0).extractLsb' 0 8 = b0 ∧ (b3 ++ b2 ++ b1 ++ b0).extractLsb' 8 8 = b1 ∧
      (b3 ++ b2 ++ b1 ++ b0).extractLsb' 16 8 = b2 ∧ (b3 ++ b2 ++ b1 ++ b0).extractLsb' 24 8 = b3 := by
  have h3 := b3.isLt
  have h2 := b2.isLt
  have h1 := b1.isLt
  have h0 := b0.isLt
  refine ⟨?_, ?_, ?_, ?_⟩ <;>
  · apply BitVec.eq_of_toNat_eq
    simp only [field_toNat, append_toNat]
    omega

/-- Character k of T lies in word k / 4, at byte k mod 4 (20_memory.md R57). -/
theorem textWord_byte (t : Vector Byte 32) (m : Fin 8) (k : Fin 32) (h : k.val / 4 = m.val) :
    (textWord t m).extractLsb' (8 * (k.val % 4)) 8 = t[k] := by
  obtain ⟨k, hk⟩ := k
  obtain ⟨j, hj, rfl⟩ : ∃ j, j < 4 ∧ k = 4 * m.val + j := ⟨k % 4, by omega, by simp at h; omega⟩
  obtain ⟨h0, h1, h2, h3⟩ := word_bytes t[4 * m.val + 3] t[4 * m.val + 2] t[4 * m.val + 1] t[4 * m.val]
  simp only [Nat.mul_add_mod]
  interval_cases j
  exacts [h0, h1, h2, h3]

/-- A word of T is made of its four characters. -/
theorem textWord_congr {t t' : Vector Byte 32} {m : Fin 8}
    (h : ∀ k : Fin 32, k.val / 4 = m.val → t[k] = t'[k]) : textWord t m = textWord t' m := by
  have hk : ∀ j (hj : j < 4), t[4 * m.val + j] = t'[4 * m.val + j] :=
    fun j hj => h ⟨4 * m.val + j, by omega⟩ (by simp; omega)
  rw [textWord, textWord, hk 3 (by omega), hk 2 (by omega), hk 1 (by omega)]
  exact congrArg _ (hk 0 (by omega))

/-- A word of T is written exactly where its four characters are (10_state.md R34). -/
theorem State.windowWritten_text_iff {s : State} {m : Fin 8} :
    s.windowWritten (.text m) = true ↔ ∀ k : Fin 32, k.val / 4 = m.val → s.tWritten[k] = true := by
  simp only [State.windowWritten, Bool.and_eq_true]
  constructor
  · rintro ⟨⟨⟨h0, h1⟩, h2⟩, h3⟩ ⟨k, hk⟩ hm
    obtain ⟨j, hj, rfl⟩ : ∃ j, j < 4 ∧ k = 4 * m.val + j := ⟨k % 4, by omega, by simp at hm; omega⟩
    interval_cases j
    exacts [h0, h1, h2, h3]
  · intro h
    have hk : ∀ j (hj : j < 4), s.tWritten[4 * m.val + j] = true :=
      fun j hj => h ⟨4 * m.val + j, by omega⟩ (by simp; omega)
    exact ⟨⟨⟨hk 0 (by omega), hk 1 (by omega)⟩, hk 2 (by omega)⟩, hk 3 (by omega)⟩

/-! ### What a wide-integer command leaves to read -/

/-- Every written word of the window outside `W[rd]` and STATUS reads as before (10_state.md R20). -/
theorem WideFrame.windowRead {rd : Reg} {s t : State} (h : WideFrame rd s t) {reg : WindowReg}
    (hstatus : reg ≠ .status) (hrd : ∀ j, reg ≠ .wide rd j) (hw : s.windowWritten reg = true) :
    t.windowRead reg = s.windowRead reg := by
  obtain ⟨hwide, ⟨htext, hmarks, hlen⟩, ⟨hr, hrmark⟩, hstrict, -, -⟩ := h
  cases reg with
  | wide i k =>
    obtain ⟨hval, hmark⟩ := hwide i fun hi => hrd k (by rw [hi])
    have hs : s.wWritten[i][k] = true := hw
    have ht : t.wWritten[i][k] = true := by rw [hmark]; exact hs
    simp only [State.windowRead, State.readWideWord_written hs, State.readWideWord_written ht, hval]
  | result => simp only [State.windowRead, State.readResult_written hw,
      State.readResult_written (hrmark.trans hw), hr]
  | tlen => simp only [State.windowRead, hlen]
  | config => simp only [State.windowRead, hstrict]
  | status => exact absurd rfl hstatus
  | text m =>
    refine textWord_congr fun k hk => ?_
    have hs := State.windowWritten_text_iff.mp hw k hk
    have ht : t.tWritten[k] = true := by rw [hmarks]; exact hs
    simpa [State.readByte_written hs, State.readByte_written ht] using congrArg (·[k]) htext
  | _ => rfl

/-- Settles O18: each of the seven commands ends in its destination, whether it has a result or not. -/
theorem wideCommandsFrame : Obligations.WideCommandsFrame := by
  intro rd a b n k s i hi
  have hend : ∃ written, EndsInWide rd written s (exec i s) := by
    have hkind : i ∈ [Instr.make rd a b, .orx rd a b] ∨
        i ∈ [Instr.shl rd a n, .shr rd a n, .ori rd a k, .hi rd a, .lo rd a] := by
      simp only [List.mem_cons, List.not_mem_nil, or_false] at hi ⊢
      tauto
    obtain h2 | h1 := hkind
    · exact ⟨_, exec_wide_twoSources rd a b s i h2⟩
    · exact ⟨_, exec_wide_oneSource rd a n k s i h1⟩
  obtain ⟨written, t, ht, hframe, -⟩ := hend
  exact ⟨t, ht, hframe, fun reg => hframe.windowRead⟩

/-! ### Host reads of unwritten state -/

/-- The offset of word k of `W[i]` (20_memory.md R56). -/
theorem windowReg_wide : ∀ i k : Fin 4, windowReg (0x10 * i.val + 4 * k.val) = .wide i k := by
  decide

/-- The offset of word m of T (20_memory.md R57). -/
theorem windowReg_text : ∀ m : Fin 8, windowReg (0x080 + 4 * m.val) = .text m := by
  decide

/-- A host read of a word that is not written records it, and gives the host what the read finds
(70_reset_and_hazards.md R231; log 2, log 18). -/
theorem step_readOp_unwritten {s : State} {off : Nat} {rest : List HostOp} {reg : WindowReg}
    (hp : s.pending = none) (hh : s.host = readOp off :: rest) (h : off < 256) (h4 : off % 4 = 0)
    (hreg : windowReg off = reg) (hw : s.windowWritten reg = false) :
    step s = .next { s with
      unwrittenRead := true, freeUses := s.freeUses + 1,
      reads := s.windowRead reg :: s.reads, host := rest } := by
  have hw' : State.windowWritten { s with host := rest } reg = false := hw
  have hread : State.windowRead { s with host := rest } reg = s.windowRead reg := rfl
  rw [step_readOp hp hh h h4, hreg]
  simp [State.hostRead, State.noteUse, State.deliver, hw', hread]

/-- A marked character of a word of T reads as its content, whatever its neighbours are. -/
theorem State.windowRead_text_byte {s : State} {m : Fin 8} {k : Fin 32} (h : k.val / 4 = m.val)
    (hk : s.tWritten[k] = true) :
    (s.windowRead (.text m)).extractLsb' (8 * (k.val % 4)) 8 = s.t[k] := by
  rw [State.windowRead, textWord_byte _ _ _ h]
  simpa using State.readByte_written hk

/-- Settles O59: each command by whether its operands are written, and the host's read of each word
that has marks. -/
theorem unwrittenUseRecorded : Obligations.UnwrittenUseRecorded := by
  intro rd a b n k s
  refine ⟨exec_wide_twoSources rd a b s, exec_wide_oneSource rd a n k s,
    endCommand_text _ (encodeText_length _) s, endCommand_result _ _ s, endCommand_result _ _ s, ?_,
    fun off rest hp hh => ⟨fun i j hoff hw => ?_, fun hoff hw => ?_, fun m hoff hw => ?_⟩⟩
  · obtain ⟨t, ht, hpending, hframe, hlost, hkept⟩ := exec_dec_end rd s
    refine ⟨t, ht, hpending, hframe, fun hlen hmark => hlost ?_,
      fun hmarks => hkept (State.decodeWritten_iff.mpr hmarks)⟩
    obtain ⟨j, hj, hmark⟩ := hmark
    rw [← Bool.not_eq_true, State.decodeWritten_iff]
    exact fun hall => Bool.noConfusion (hmark.symm.trans (hall hlen j hj))
  · subst hoff
    exact ⟨_, step_readOp_unwritten hp hh (by omega) (by omega) (windowReg_wide i j) hw⟩
  · subst hoff
    exact ⟨_, step_readOp_unwritten hp hh (by decide) (by decide) rfl hw⟩
  · subst hoff
    have hword : s.windowWritten (.text m) = false := by
      obtain ⟨j, hj, hmark⟩ := hw
      rw [← Bool.not_eq_true, State.windowWritten_text_iff]
      exact fun hall => Bool.noConfusion (hmark.symm.trans (hall j hj))
    exact ⟨_, fun j hj hmark => State.windowRead_text_byte hj hmark,
      step_readOp_unwritten hp hh (by omega) (by omega) (windowReg_text m) hword⟩

end Sys2Proof.Machine

/-! PROOFS. Statements of 20_memory.md: where each register lies in the window and how W and T are packed
into words, what a host read and a host write do on an idle unit, and which accesses are ill-formed
(20_memory.md R54 to R60, R65; 60_exceptions.md R210). -/

namespace Sys2Proof.Machine

/-! ### The words of the window (20_memory.md R55) -/

/-- The reserved words, R60: those between CMD and T, and those from the end of T on. -/
theorem windowReg_reserved {off : Nat} (h : 0x054 ≤ off ∧ off < 0x080 ∨ 0x0A0 ≤ off) :
    windowReg off = .reserved := by
  unfold windowReg
  rw [if_neg (by omega), if_neg (by omega), if_neg (by omega), if_neg (by omega), if_neg (by omega),
    if_neg (by omega), if_neg (by omega)]

/-- The two ranges of aligned offsets that hold the words of W and of T. -/
theorem windowReg_storage {off : Nat} (h4 : off % 4 = 0)
    (h : off < 0x040 ∨ 0x080 ≤ off ∧ off < 0x0A0) :
    (∃ i k, windowReg off = .wide i k) ∨ ∃ m, windowReg off = .text m := by
  obtain hw | ⟨hlow, hhigh⟩ := h
  · exact .inl ⟨_, _, if_pos hw⟩
  · obtain ⟨m, rfl⟩ : ∃ m, off = 0x080 + 4 * m := ⟨(off - 0x080) / 4, by omega⟩
    exact .inr ⟨⟨m, by omega⟩, windowReg_text ⟨m, by omega⟩⟩

/-- Settles O39: the single registers by evaluation, the reserved words by their ranges. -/
theorem registerMap : Obligations.RegisterMap :=
  ⟨rfl, rfl, rfl, rfl, rfl, fun _ _ h => windowReg_reserved (by omega)⟩

/-! ### Words and bytes of a wide register (20_memory.md R56) -/

/-- A field of a field is a field. -/
theorem extract_extract {w a n b len : Nat} (x : BitVec w) (h : b + len ≤ n) :
    (x.extractLsb' a n).extractLsb' b len = x.extractLsb' (a + b) len := by
  apply BitVec.eq_of_getElem_eq
  intro i hi
  have hin : b + i < n := by omega
  simp [hin, Nat.add_assoc]

/-- Word k is bits 32k+31 to 32k of the value: words 0 and 1 are LO, words 2 and 3 are HI. -/
theorem wideWord_eq_extract (x : Wide) (k : Fin 4) :
    wideWord x k = x.value.extractLsb' (32 * k.val) 32 := by
  rw [Wide.value]
  match k with
  | 0 | 1 => rw [BitVec.extractLsb'_append_eq_of_add_le (by decide)]; rfl
  | 2 | 3 => rw [BitVec.extractLsb'_append_eq_of_le (by decide)]; rfl

/-- Identifier byte j lies in word 3 - j / 4, the lower j mod 4 the higher. -/
theorem idByte_eq_extract_wideWord {x : Wide} {k : Fin 4} {j : Nat} (h : j < 16)
    (hk : j / 4 = 3 - k.val) :
    idByte x.value j = (wideWord x k).extractLsb' (24 - 8 * (j % 4)) 8 := by
  have hstart : 120 - 8 * j = 32 * k.val + (24 - 8 * (j % 4)) := by omega
  rw [wideWord_eq_extract, extract_extract _ (by omega), idByte, hstart]

/-- Settles O40: the offset, the content and the bytes of each word. -/
theorem wideWordPacking : Obligations.WideWordPacking :=
  fun i k x => ⟨windowReg_wide i k, wideWord_eq_extract x k, fun _ => idByte_eq_extract_wideWord⟩

/-! ### Words of T (20_memory.md R57) -/

/-- Settles O41: the offset and the characters of each word. -/
theorem textWordPacking : Obligations.TextWordPacking :=
  fun m t k => ⟨windowReg_text m, textWord_byte t m k⟩

/-- A word is its four bytes. -/
theorem word_eq_bytes (v : Word) :
    v.extractLsb' 24 8 ++ v.extractLsb' 16 8 ++ v.extractLsb' 8 8 ++ v.extractLsb' 0 8 = v := by
  have hv := v.isLt
  apply BitVec.eq_of_toNat_eq
  simp only [append_toNat, field_toNat]
  omega

/-- A written word of T reads as written. -/
theorem textWord_setTextWord_same (t : Vector Byte 32) (m : Fin 8) (v : Word) :
    textWord (setTextWord t m v) m = v := by
  have hbyte : ∀ j (hj : j < 4), (setTextWord t m v)[4 * m.val + j] = v.extractLsb' (8 * j) 8 := by
    intro j hj
    have hget := setTextWord_get t m v ⟨4 * m.val + j, by omega⟩
    rw [if_pos (by simp; omega)] at hget
    simpa [Nat.mul_add_mod, Nat.mod_eq_of_lt hj] using hget
  have hfirst : (setTextWord t m v)[4 * m.val] = v.extractLsb' 0 8 := hbyte 0 (by decide)
  rw [textWord, hbyte 3 (by decide), hbyte 2 (by decide), hbyte 1 (by decide), hfirst]
  exact word_eq_bytes v

/-! ### Host writes to W and T (20_memory.md R58) -/

@[simp] theorem State.windowWrite_host (s : State) (reg : WindowReg) (v : Word) :
    (s.windowWrite reg v).host = s.host := by
  cases reg <;> rfl

@[simp] theorem State.windowWrite_reads (s : State) (reg : WindowReg) (v : Word) :
    (s.windowWrite reg v).reads = s.reads := by
  cases reg <;> rfl

/-- Only a write of CMD issues a command. -/
theorem State.windowWrite_pending {reg : WindowReg} (s : State) (v : Word) (h : reg ≠ .cmd) :
    (s.windowWrite reg v).pending = s.pending := by
  cases reg with
  | cmd => exact absurd rfl h
  | _ => rfl

/-- The words of a wide register after a write of one of them. -/
theorem State.windowWrite_wideWord (s : State) (i k j : Fin 4) (v : Word) :
    wideWord ((s.windowWrite (.wide i k) v).wide i) j = if j = k then v else wideWord (s.wide i) j := by
  have hset : (s.windowWrite (.wide i k) v).wide i = setWideWord (s.wide i) k v := by
    simp [State.windowWrite, State.wide]
  rw [hset, wideWord_setWideWord]

/-- The marks of a wide register after a write of one of its words. -/
theorem State.windowWrite_wideMark (s : State) (i k j : Fin 4) (v : Word) :
    (s.windowWrite (.wide i k) v).wWritten[i][j] = if j = k then true else s.wWritten[i][j] := by
  have hset : (s.windowWrite (.wide i k) v).wWritten[i] = s.wWritten[i].set k true := by
    simp [State.windowWrite]
  rw [hset]
  simp [Vector.getElem_set, Fin.ext_iff, eq_comm]

/-- A write of a word of `W[i]` leaves the other wide registers alone. -/
theorem State.windowWrite_sameWide (s : State) {i r : Reg} (k : Fin 4) (v : Word) (h : r ≠ i) :
    SameWide r s (s.windowWrite (.wide i k) v) := by
  have hv : i.val ≠ r.val := fun e => h (Fin.ext e.symm)
  constructor <;> simp [State.windowWrite, State.wide, hv]

/-- A supported write, by the word its offset names. -/
theorem step_writeOp_reg {s : State} {off : Nat} {v : Word} {rest : List HostOp} {reg : WindowReg}
    (hp : s.pending = none) (hh : s.host = writeOp off v :: rest) (h : off < 256) (h4 : off % 4 = 0)
    (hreg : windowReg off = reg) :
    step s = .next ({ s with host := rest }.windowWrite reg v) := by
  rw [step_writeOp hp hh h h4, hreg]

/-- Settles O42: each write reaches the word its offset names, and the rules above say what it changes
there. -/
theorem hostWriteEffects : Obligations.HostWriteEffects := by
  intro s off v rest hp hh
  have hwrite : ∀ reg, off < 256 → off % 4 = 0 → windowReg off = reg →
      step s = .next ({ s with host := rest }.windowWrite reg v) := fun _ => step_writeOp_reg hp hh
  refine ⟨fun i k hoff => ?_, fun m hoff => ?_, fun hoff => ?_, fun hoff => ?_, fun hoff => ?_,
    fun hoff => ?_, fun h4 hoff => ?_⟩
  · exact ⟨_, hwrite (.wide i k) (by omega) (by omega) (hoff ▸ windowReg_wide i k),
      fun j => State.windowWrite_wideWord _ i k j v, fun j => State.windowWrite_wideMark _ i k j v,
      fun r hr => State.windowWrite_sameWide { s with host := rest } k v hr, rfl⟩
  · exact ⟨_, hwrite (.text m) (by omega) (by omega) (hoff ▸ windowReg_text m),
      setTextWord_get s.t m v, markTextWord_get s.tWritten m, rfl⟩
  · exact hwrite .tlen (by omega) (by omega) (hoff ▸ rfl)
  · exact hwrite .config (by omega) (by omega) (hoff ▸ rfl)
  · obtain hresult | hstatus := hoff
    · exact hwrite .result (by omega) (by omega) (hresult ▸ rfl)
    · exact hwrite .status (by omega) (by omega) (hstatus ▸ rfl)
  · exact hwrite .cmd (by omega) (by omega) (hoff ▸ rfl)
  · exact hwrite .reserved (by omega) h4 (windowReg_reserved (by omega))

/-! ### Host reads of written state (20_memory.md R59) -/

/-- A host read of a written word gives the host its content, and changes nothing else. -/
theorem step_readOp_written {s : State} {off : Nat} {rest : List HostOp} {reg : WindowReg}
    (hp : s.pending = none) (hh : s.host = readOp off :: rest) (h : off < 256) (h4 : off % 4 = 0)
    (hreg : windowReg off = reg) (hw : s.windowWritten reg = true) :
    step s = .next { s with reads := s.windowRead reg :: s.reads, host := rest } := by
  have hw' : State.windowWritten { s with host := rest } reg = true := hw
  have hread : State.windowRead { s with host := rest } reg = s.windowRead reg := rfl
  rw [step_readOp hp hh h h4, hreg]
  simp [State.hostRead, State.noteUse, State.deliver, hw', hread]

/-- A written word of T reads as its content. -/
theorem State.windowRead_text_written {s : State} {m : Fin 8} (h : s.windowWritten (.text m) = true) :
    s.windowRead (.text m) = textWord s.t m := by
  refine textWord_congr fun k hk => ?_
  have hmark := State.windowWritten_text_iff.mp h k hk
  simpa using State.readByte_written hmark

/-- Settles O43: each read finds the content of the word its offset names. -/
theorem hostReadReturns : Obligations.HostReadReturns := by
  intro s off rest hp hh
  have hread : ∀ reg x, off < 256 → off % 4 = 0 → windowReg off = reg →
      s.windowWritten reg = true → s.windowRead reg = x →
      step s = .next { s with reads := x :: s.reads, host := rest } :=
    fun _ _ h h4 hreg hw hx => hx ▸ step_readOp_written hp hh h h4 hreg hw
  refine ⟨fun i k hoff hw => ?_, fun m hoff hmarks => ?_, fun hoff hw => ?_, fun hoff => ?_,
    fun hoff => ?_, fun hoff => ?_, fun hoff => ?_, fun h4 hoff => ?_⟩
  · exact hread (.wide i k) _ (by omega) (by omega) (hoff ▸ windowReg_wide i k) hw
      ((State.readWideWord_written hw).trans (wideWord_eq_extract _ k))
  · have hw := State.windowWritten_text_iff.mpr hmarks
    exact hread (.text m) _ (by omega) (by omega) (hoff ▸ windowReg_text m) hw
      (State.windowRead_text_written hw)
  · exact hread .result _ (by omega) (by omega) (hoff ▸ rfl) hw (State.readResult_written hw)
  · exact hread .tlen _ (by omega) (by omega) (hoff ▸ rfl) rfl (BitVec.ofNat_toNat _ _).symm
  · exact hread .config _ (by omega) (by omega) (hoff ▸ rfl) rfl (BitVec.ofNat_toNat _ _).symm
  · have hbusy : s.busy = false := by rw [State.busy, hp, Option.isSome_none]
    exact hread .status _ (by omega) (by omega) (hoff ▸ rfl) rfl (congrArg s.status.word hbusy)
  · exact hread .cmd _ (by omega) (by omega) (hoff ▸ rfl) rfl rfl
  · exact hread .reserved _ (by omega) h4 (windowReg_reserved (by omega)) rfl rfl

/-! ### A read after a write (20_memory.md R65) -/

/-- A write marks the word written and issues no command, and the word then reads as written. -/
def ReadsBack (reg : WindowReg) : Prop :=
  reg ≠ .cmd ∧ ∀ (s : State) (v : Word),
    (s.windowWrite reg v).windowWritten reg = true ∧ (s.windowWrite reg v).windowRead reg = v

/-- The words of a wide register read back. -/
theorem readsBack_wide (i k : Fin 4) : ReadsBack (.wide i k) := by
  refine ⟨by simp, fun s v => ?_⟩
  have hmark : (s.windowWrite (.wide i k) v).wWritten[i][k] = true := by
    rw [State.windowWrite_wideMark, if_pos rfl]
  refine ⟨hmark, (State.readWideWord_written hmark).trans ?_⟩
  rw [State.windowWrite_wideWord, if_pos rfl]

/-- The words of T read back. -/
theorem readsBack_text (m : Fin 8) : ReadsBack (.text m) := by
  refine ⟨by simp, fun s v => ?_⟩
  have hmarks : (s.windowWrite (.text m) v).windowWritten (.text m) = true :=
    State.windowWritten_text_iff.mpr fun k hk => (markTextWord_get s.tWritten m k).trans (if_pos hk)
  exact ⟨hmarks, (State.windowRead_text_written hmarks).trans (textWord_setTextWord_same s.t m v)⟩

/-- On an idle unit, a write and then a read of a word that reads back answer the written value, and no
use of unwritten state is recorded. -/
theorem run_writeOp_readOp {s : State} {off : Nat} {v : Word} {rest : List HostOp} {reg : WindowReg}
    (hp : s.pending = none) (hh : s.host = writeOp off v :: readOp off :: rest) (h : off < 256)
    (h4 : off % 4 = 0) (hreg : windowReg off = reg) (hback : ReadsBack reg) :
    ∃ t, core.run 2 s = .next t ∧ t.reads = v :: s.reads ∧ t.unwrittenRead = s.unwrittenRead := by
  obtain ⟨hcmd, hback⟩ := hback
  obtain ⟨hmark, hvalue⟩ := hback { s with host := readOp off :: rest } v
  have hidle := (State.windowWrite_pending { s with host := readOp off :: rest } v hcmd).trans hp
  rw [run_succ 1 (step_writeOp_reg hp hh h h4 hreg), run_succ 0 (step_readOp_written hidle
    (State.windowWrite_host _ reg v) h h4 hreg hmark), run_zero]
  exact ⟨_, rfl, by simp [hvalue], by simp⟩

/-- Settles O44: the aligned offsets of the two ranges name words of W and T, and these read back. -/
theorem readAfterWrite : Obligations.ReadAfterWrite := by
  intro s off v rest hp hh h4 hoff
  obtain ⟨i, k, hreg⟩ | ⟨m, hreg⟩ := windowReg_storage h4 hoff
  · exact run_writeOp_readOp hp hh (by omega) h4 hreg (readsBack_wide i k)
  · exact run_writeOp_readOp hp hh (by omega) h4 hreg (readsBack_text m)

/-! ### Ill-formed accesses (20_memory.md R54) -/

/-- An access that is not 32 bits wide at an aligned offset of the window reaches no word. -/
theorem accessOffset_illFormed {addr nbytes : Nat}
    (h : ¬ (nbytes = 4 ∧ ∃ off, off < 256 ∧ off % 4 = 0 ∧ addr = Config.base + off)) :
    accessOffset addr nbytes = none := by
  rw [Option.eq_none_iff_forall_ne_some]
  intro off ho
  obtain ⟨hwidth, haddr, hlt, h4⟩ := accessOffset_some.mp ho
  exact h ⟨hwidth, off, hlt, h4, haddr⟩

/-- An access that reaches no word is HostAccessFault, whether the unit is busy or not (log 7). -/
theorem State.access_illFormed {addr nbytes : Nat} (s : State) (allowed : WindowReg → Bool)
    (h : accessOffset addr nbytes = none) :
    s.access addr nbytes allowed = .error .hostAccessFault := by
  rw [State.access, h]

/-- Settles O45: such an access reaches no word, so the host's turn is the fault. -/
theorem illFormedAccessFaults : Obligations.IllFormedAccessFaults := by
  intro s addr nbytes v rest hp hbad
  have hnone := accessOffset_illFormed hbad
  constructor <;> intro hh
  · simp [step_idle hp, hostTurn, hh, hostReadTurn, State.access_illFormed _ _ hnone]
  · simp [step_idle hp, hostTurn, hh, hostWriteTurn, State.access_illFormed _ _ hnone]

end Sys2Proof.Machine

/-! PROOFS. Statements of 30_encoding.md: the decoder and the encoder are inverse to each other, what
the unit does with each pending word, and what the pseudo-instructions do (30_encoding.md R71 to R77,
R82). -/

namespace Sys2Proof

/-! ### The decoder, by the row of its word (R76, R77) -/

/-- A word of a row's opcode is the row's command if it matches, and else has a non-zero field. -/
theorem decode_of_opField {c : Word} {op : Opcode} (h : opField c = op.bits) :
    decode c =
      if c &&& op.mask = op.matchWord then .ok (op.command c) else .error .nonzeroField := by
  rw [decode, h, opcodeOfBits_bits]

/-- A word of no row's opcode is reserved. -/
theorem decode_reserved {c : Word} (h : ∀ op : Opcode, opField c ≠ op.bits) :
    decode c = .error .reservedOpcode := by
  have hnone : opcodeOfBits (opField c) = none :=
    Option.eq_none_iff_forall_ne_some.mpr fun op hop => h op (bits_of_opcodeOfBits hop).symm
  rw [decode, hnone]

/-- A word that decodes is a word of some row, and its command is the row's. -/
theorem decode_ok {c : Word} {i : Instr} (h : decode c = .ok i) :
    ∃ op : Opcode, opField c = op.bits ∧ c &&& op.mask = op.matchWord ∧ i = op.command c := by
  unfold decode at h
  split at h
  · cases h
  · rename_i op hop
    split at h
    · rename_i hrow
      cases h
      exact ⟨op, (bits_of_opcodeOfBits hop).symm, hrow, rfl⟩
    · cases h

/-- The command a row makes of a word has the row's opcode. -/
@[simp] theorem Opcode.opcode_command (op : Opcode) (c : Word) : (op.command c).opcode = op := by
  cases op <;> rfl

/-! ### From a command to its word and back -/

/-- An encoded command has its opcode's number in OP. -/
theorem opField_encode (i : Instr) : opField (encode i) = i.opcode.bits := by
  cases i <;> exact opField_commandWord ..

/-- An encoded command is a word of its row. -/
theorem encode_and_mask {i : Instr} (h : i.wellFormed = true) :
    encode i &&& i.opcode.mask = i.opcode.matchWord := by
  cases i with
  | make rd a b => exact Laws.Encoding.make rd a b h
  | shl rd a n => exact Laws.Encoding.shl rd a n h
  | shr rd a n => exact Laws.Encoding.shr rd a n h
  | ori rd a k => exact Laws.Encoding.ori rd a k h
  | orx rd a b => exact Laws.Encoding.orx rd a b h
  | hi rd a => exact Laws.Encoding.hi rd a h
  | lo rd a => exact Laws.Encoding.lo rd a h
  | enc a => exact Laws.Encoding.enc a h
  | dec rd => exact Laws.Encoding.dec rd h
  | cmp a b => exact Laws.Encoding.cmp a b h
  | hash a => exact Laws.Encoding.hash a h

/-- An encodable shift amount fits the 8 bits of its field (R73). -/
theorem shiftAmountOk_iff {n : Nat} : shiftAmountOk n = true ↔ n < 256 := by
  rw [shiftAmountOk, decide_eq_true_iff, Nat.lt_succ_iff]

/-- The fields of an encoded command are its operands. -/
theorem command_encode {i : Instr} (h : i.wellFormed = true) : i.opcode.command (encode i) = i := by
  cases i with
  | shl rd a n | shr rd a n =>
    simpa [Instr.opcode, Opcode.command, encode] using shiftAmountOk_iff.mp h
  | _ => simp [Instr.opcode, Opcode.command, encode]

/-- Settles O2: the encoded word is a word of its command's row, and its fields are the operands. -/
theorem decodeEncode : Obligations.DecodeEncode := by
  intro i h
  rw [decode_of_opField (opField_encode i), if_pos (encode_and_mask h), command_encode h]

/-- Settles O1: each listed word is the encoding of its command. -/
theorem decodeSpecWords : Obligations.DecodeSpecWords :=
  ⟨decodeEncode (.make 1 2 1) rfl, decodeEncode (.shl 0 1 63) rfl, decodeEncode (.shr 2 0 100) rfl,
    decodeEncode (.ori 0 1 0xFFFF) rfl, decodeEncode (.orx 3 3 1) rfl, decodeEncode (.hi 3 0) rfl,
    decodeEncode (.lo 1 1) rfl, decodeEncode (.enc 2) rfl, decodeEncode (.dec 2) rfl,
    decodeEncode (.cmp 3 0) rfl, decodeEncode (.hash 2) rfl⟩

/-! ### From a word to its command and back -/

/-- A word is the word of its fields, where its bits [19:16] are 0 (R71). -/
theorem commandWord_fields {c : Word} {op : Opcode} (hop : opField c = op.bits)
    (hz : c.extractLsb' 16 4 = 0) :
    commandWord op (rdField c) (rs1Field c) (rs2Field c) (immField c) = c := by
  have hzn : c.toNat / 2 ^ 16 % 2 ^ 4 = 0 := by rw [← field_toNat, hz]; rfl
  have hd : (rdField c).val = c.toNat / 2 ^ 24 % 2 ^ 2 := field_toNat c 24 2
  have h1 : (rs1Field c).val = c.toNat / 2 ^ 22 % 2 ^ 2 := field_toNat c 22 2
  have h2 : (rs2Field c).val = c.toNat / 2 ^ 20 % 2 ^ 2 := field_toNat c 20 2
  have hc := c.isLt
  apply BitVec.eq_of_toNat_eq
  rw [commandWord_toNat, ← hop, opField, immField, field_toNat, field_toNat]
  omega

/-- The match of a row is the opcode's number in OP, and 0 below it (R76). -/
theorem Opcode.matchWord_eq (op : Opcode) : op.matchWord = op.bits ++ (0 : BitVec 26) := by
  cases op <;> rfl

/-- In a word of a row, a field below OP that the row's mask covers is 0 (R75, R76). -/
theorem field_zero_of_mask {c : Word} {op : Opcode} {start len : Nat}
    (hrow : c &&& op.mask = op.matchWord) (hlow : start + len ≤ 26)
    (hmask : op.mask.extractLsb' start len = BitVec.allOnes len) : c.extractLsb' start len = 0 := by
  calc c.extractLsb' start len
      = (c &&& op.mask).extractLsb' start len := by
        rw [BitVec.extractLsb'_and, hmask, BitVec.and_allOnes]
    _ = (0 : BitVec 26).extractLsb' start len := by
        rw [hrow, op.matchWord_eq, BitVec.extractLsb'_append_eq_of_add_le hlow]
    _ = 0 := BitVec.extractLsb'_zero

/-- Where bits [15:8] are 0, the immediate field is the shift amount (R73). -/
theorem ofNat_shiftField {c : Word} (h : c.extractLsb' 8 8 = 0) :
    BitVec.ofNat 16 (shiftField c) = immField c := by
  have hn : c.toNat / 2 ^ 8 % 2 ^ 8 = 0 := by rw [← field_toNat, h]; rfl
  apply BitVec.eq_of_toNat_eq
  rw [BitVec.toNat_ofNat, shiftField, immField, field_toNat, field_toNat]
  omega

/-- A shift field is an encodable amount (R73). -/
theorem shiftAmountOk_shiftField (c : Word) : shiftAmountOk (shiftField c) = true :=
  shiftAmountOk_iff.mpr (BitVec.isLt _)

/-- Every row makes a command that has an encoding. -/
theorem wellFormed_command (op : Opcode) (c : Word) : (op.command c).wellFormed = true := by
  cases op with
  | shl | shr => exact shiftAmountOk_shiftField c
  | _ => rfl

/-- A word of a row is the encoding of the row's command: the fields the command does not use are
covered by the mask, and 0 in the match (R76). -/
theorem encode_command {c : Word} {op : Opcode} (hop : opField c = op.bits)
    (hrow : c &&& op.mask = op.matchWord) : encode (op.command c) = c := by
  have hz : c.extractLsb' 16 4 = 0 :=
    field_zero_of_mask hrow (by decide) (by cases op <;> rfl)
  have hrd (hmask : op.mask.extractLsb' 24 2 = BitVec.allOnes 2) : rdField c = 0 :=
    congrArg BitVec.toFin (field_zero_of_mask hrow (by decide) hmask)
  have hrs1 (hmask : op.mask.extractLsb' 22 2 = BitVec.allOnes 2) : rs1Field c = 0 :=
    congrArg BitVec.toFin (field_zero_of_mask hrow (by decide) hmask)
  have hrs2 (hmask : op.mask.extractLsb' 20 2 = BitVec.allOnes 2) : rs2Field c = 0 :=
    congrArg BitVec.toFin (field_zero_of_mask hrow (by decide) hmask)
  have himm (hmask : op.mask.extractLsb' 0 16 = BitVec.allOnes 16) : immField c = 0 :=
    field_zero_of_mask hrow (by decide) hmask
  have hshift (hmask : op.mask.extractLsb' 8 8 = BitVec.allOnes 8) :
      immField c = BitVec.ofNat 16 (shiftField c) :=
    (ofNat_shiftField (field_zero_of_mask hrow (by decide) hmask)).symm
  have hword := commandWord_fields hop hz
  cases op with
  | make | orx => rwa [himm rfl] at hword
  | shl | shr => rwa [hrs2 rfl, hshift rfl] at hword
  | ori => rwa [hrs2 rfl] at hword
  | hi | lo => rwa [hrs2 rfl, himm rfl] at hword
  | enc | hash => rwa [hrd rfl, hrs2 rfl, himm rfl] at hword
  | dec => rwa [hrs1 rfl, hrs2 rfl, himm rfl] at hword
  | cmp => rwa [hrd rfl, himm rfl] at hword

/-- Settles O3: the word is a word of the row that made its command. -/
theorem encodeDecode : Obligations.EncodeDecode := by
  intro c i h
  obtain ⟨op, hop, hrow, rfl⟩ := decode_ok h
  exact ⟨wellFormed_command op c, encode_command hop hrow⟩

end Sys2Proof

namespace Sys2Proof.Machine

/-! ### What the unit does with a pending word (R77) -/

/-- The rows as the spec prints them are those of the opcodes. -/
theorem mem_commandRows {row : Nat × Word × Word} :
    row ∈ commandRows ↔ ∃ op : Opcode, row = (op.bits.toNat, op.matchWord, op.mask) := by
  have hrows : commandRows =
      allOpcodes.map fun op => (op.bits.toNat, op.matchWord, op.mask) := rfl
  have hall (op : Opcode) : op ∈ allOpcodes := by cases op <;> decide
  simp [hrows, hall, eq_comm]

/-- A word is of a row's opcode where its bits from 26 up are that number (R71). -/
theorem opField_eq_bits {c : Word} {op : Opcode} :
    opField c = op.bits ↔ c.toNat / 2 ^ 26 = op.bits.toNat := by
  have hc := c.isLt
  have hfield : (opField c).toNat = c.toNat / 2 ^ 26 := by
    rw [opField, field_toNat]
    omega
  rw [← BitVec.toNat_inj, hfield]

/-- A rejected word writes STATUS only. -/
theorem State.rejectCommand_statusOnly (s : State) (e : DecodeError) :
    StatusOnly s (s.rejectCommand e) :=
  ⟨fun _ => ⟨rfl, rfl⟩, ⟨rfl, rfl, rfl⟩, ⟨rfl, rfl⟩, ⟨rfl, rfl, rfl⟩, rfl, rfl⟩

/-- A step with a pending word whose latency is over decodes the word. -/
theorem step_runCommand {s : State} {c : Word} (hp : s.pending = some ⟨c, 0⟩) :
    step s = runCommand c s := by
  simp [step, hp]

/-- A word that does not decode completes with its error. -/
theorem step_rejects {s : State} {c : Word} {e : DecodeError} (hp : s.pending = some ⟨c, 0⟩)
    (h : decode c = .error e) :
    ∃ t, step s = .next t ∧ t.Failed 4 (illegalDetail e) 0 ∧ StatusOnly s t :=
  ⟨s.rejectCommand e, by rw [step_runCommand hp, runCommand, h], ⟨rfl, rfl⟩,
    s.rejectCommand_statusOnly e⟩

/-- Settles O4: the three outcomes of the decoder, in the step that completes the word. -/
theorem pendingWordDecoded : Obligations.PendingWordDecoded := by
  intro s c hp
  refine ⟨fun hnone => step_rejects hp (decode_reserved fun op hop => hnone ?_), ?_⟩
  · exact List.mem_map.mpr ⟨_, mem_commandRows.mpr ⟨op, rfl⟩, (opField_eq_bits.mp hop).symm⟩
  · intro row hrow hnum
    obtain ⟨op, rfl⟩ := mem_commandRows.mp hrow
    have hdecode := decode_of_opField (opField_eq_bits.mpr hnum)
    constructor <;> intro hmask
    · exact step_rejects hp (hdecode.trans (if_neg hmask))
    · rw [if_pos hmask] at hdecode
      exact ⟨op.command c, hdecode, by rw [Opcode.opcode_command],
        by rw [step_runCommand hp, runCommand, hdecode]⟩

/-! ### The wide-integer operations on values (40_wide_integer.md R103, R111) -/

/-- The small value of ORI is its immediate. -/
theorem smallImmediate_value (k : BitVec 16) : (smallImmediate k).value = k.setWidth 128 := by
  apply BitVec.eq_of_toNat_eq
  have hk := k.isLt
  simp only [Wide.value_toNat, smallImmediate, BitVec.toNat_setWidth, BitVec.ofNat_eq_ofNat,
    BitVec.toNat_ofNat]
  omega

/-- OR of the limbs is OR of the values. -/
theorem wideOr_value (x y : Wide) : (wideOr x y).value = x.value ||| y.value :=
  BitVec.or_append.symm

/-- OR with the small value 0 changes nothing. -/
theorem wideOr_smallImmediate_zero (x : Wide) : wideOr x (smallImmediate 0) = x := by
  simp [wideOr, smallImmediate]

/-- A register with both limbs 0 has the value 0. -/
theorem zeroWide_value : (⟨0, 0⟩ : Wide).value = 0#128 := BitVec.zero_append_zero

/-- The limb procedure shifts the value left: bit by bit, by the limb the bit comes from (R105). -/
theorem wideShl_value (x : Wide) (n : Nat) : (wideShl x n).value = x.value <<< n := by
  apply BitVec.eq_of_getLsbD_eq
  intro i hi
  unfold wideShl
  split_ifs with hzero hlimb hwide
  · rw [hzero, BitVec.shiftLeft_zero]
  · simp only [Wide.value, BitVec.getLsbD_append, BitVec.getLsbD_or, BitVec.getLsbD_shiftLeft,
      BitVec.getLsbD_ushiftRight]
    grind
  · obtain ⟨m, rfl⟩ : ∃ m, n = 64 + m := ⟨n - 64, by omega⟩
    simp only [Wide.value, BitVec.getLsbD_append, BitVec.getLsbD_shiftLeft, BitVec.getLsbD_zero,
      BitVec.ofNat_eq_ofNat, Nat.add_sub_cancel_left]
    grind
  · rw [zeroWide_value, BitVec.shiftLeft_eq_zero (by omega)]

/-- The limb procedure clears the register from 128 on (R109). -/
theorem wideShr_of_le (x : Wide) {n : Nat} (h : 128 ≤ n) : wideShr x n = ⟨0, 0⟩ := by
  rw [wideShr, if_neg (by omega), if_neg (by omega), if_neg (by omega)]

/-! ### Commands of one written source -/

/-- The destination reads as written by the command. -/
@[simp] theorem State.wide_finishWide_same (s : State) (rd : Reg) (x : Wide) :
    (s.finishWide rd x).wide rd = x :=
  s.wide_writeWide_same rd x

/-- The destination of a finished command is written. -/
@[simp] theorem State.wideWritten_finishWide_same (s : State) (rd : Reg) (x : Wide) :
    (s.finishWide rd x).wideWritten rd = true :=
  s.wideWritten_writeWide_same rd x

/-- Writing a written register's own value leaves every register as it was. -/
theorem State.finishWide_self {s : State} {rd : Reg} (h : s.wideWritten rd = true) (r : Reg) :
    SameWide r s (s.finishWide rd (s.wide rd)) := by
  by_cases hr : r = rd
  · subst hr
    have hmarks := State.wideWritten_iff.mp h
    have hmarks' := State.wideWritten_iff.mp (s.wideWritten_finishWide_same r (s.wide r))
    exact ⟨s.wide_finishWide_same r _,
      Vector.ext fun k hk => (hmarks' ⟨k, hk⟩).trans (hmarks ⟨k, hk⟩).symm⟩
  · exact (s.finishWide_frame rd _).1 r hr

/-- A wide-integer command of a written source finishes with its value (log 2). -/
theorem wideCommand_written {s : State} {a : Reg} (rd : Reg) (x : Wide)
    (h : s.wideWritten a = true) : wideCommand rd a x s = .next (s.finishWide rd x) := by
  rw [wideCommand, h, endCommand_written]

/-- SHL of a written source (40_wide_integer.md R103). -/
theorem exec_shl_written {s : State} {a : Reg} (rd : Reg) (n : Nat) (h : s.wideWritten a = true) :
    exec (.shl rd a n) s = .next (s.finishWide rd (wideShl (s.wide a) n)) :=
  wideCommand_written rd _ h

/-- SHR of a written source (40_wide_integer.md R108). -/
theorem exec_shr_written {s : State} {a : Reg} (rd : Reg) (n : Nat) (h : s.wideWritten a = true) :
    exec (.shr rd a n) s = .next (s.finishWide rd (wideShr (s.wide a) n)) :=
  wideCommand_written rd _ h

/-- ORI of a written source (40_wide_integer.md R111). -/
theorem exec_ori_written {s : State} {a : Reg} (rd : Reg) (k : BitVec 16)
    (h : s.wideWritten a = true) :
    exec (.ori rd a k) s = .next (s.finishWide rd (wideOr (s.wide a) (smallImmediate k))) :=
  wideCommand_written rd _ h

/-- A command that wrote `W[rd]`, and then ORI of an immediate into it. -/
theorem exec_then_ori {s : State} {i : Instr} {rd : Reg} {x : Wide} (k : BitVec 16)
    (h : exec i s = .next (s.finishWide rd x)) :
    ∃ t u, exec i s = .next t ∧ exec (.ori rd rd k) t = .next u ∧
      (u.wide rd).value = x.value ||| k.setWidth 128 := by
  refine ⟨_, _, h, exec_ori_written rd k (s.wideWritten_finishWide_same rd x), ?_⟩
  rw [State.wide_finishWide_same, State.wide_finishWide_same, wideOr_value, smallImmediate_value]

/-! ### The pseudo-instructions (R82) -/

/-- An immediate of the assembler, zero-extended, is its number (R74, R81). -/
theorem zextImmediate_toNat {k : Nat} (h : k ≤ 65535) :
    ((BitVec.ofNat 16 k).setWidth 128).toNat = k := by
  rw [BitVec.toNat_setWidth, BitVec.toNat_ofNat]
  omega

/-- Five zero bits take a 5-bit digit (41_base32_codec.md R142). -/
theorem shl5_or_toNat (v : BitVec 128) {d : Nat} (h : d ≤ 31) :
    (v <<< 5 ||| (BitVec.ofNat 16 d).setWidth 128).toNat = v.toNat * 32 % 2 ^ 128 + d := by
  have hv : (v <<< 5).toNat = (v.toNat % 2 ^ 123) <<< 5 := by
    rw [BitVec.toNat_shiftLeft, Nat.shiftLeft_eq, Nat.shiftLeft_eq]
    omega
  rw [BitVec.toNat_or, zextImmediate_toNat (by omega), hv,
    ← Nat.shiftLeft_add_eq_or_of_lt (by omega), Nat.shiftLeft_eq]
  omega

/-- Settles O5: each line expands by its own row, and its commands act as SHL, SHR and ORI do. -/
theorem pseudoInstructions : Obligations.PseudoInstructions := by
  intro d a s
  refine ⟨⟨rfl, fun ha => ?mov⟩, ⟨rfl, fun ha => ?clr⟩, ⟨rfl, fun ha => ?nop⟩,
    fun k hk => ⟨if_pos hk, fun ha => ?li⟩, fun v hv => ⟨if_pos hv, fun ha => ?shl5or⟩⟩
  case mov =>
    refine ⟨_, exec_ori_written d 0 ha, ?_⟩
    rw [State.wide_finishWide_same, wideOr_smallImmediate_zero]
  case clr =>
    refine ⟨_, exec_shr_written d 128 ha, ?_⟩
    rw [State.wide_finishWide_same, wideShr_of_le _ le_rfl, zeroWide_value, BitVec.ofNat_eq_ofNat]
  case nop =>
    refine ⟨_, exec_ori_written 0 0 ha, ?_⟩
    rw [wideOr_smallImmediate_zero]
    obtain ⟨-, htext, hresult, hcontrol⟩ := s.finishWide_frame 0 (s.wide 0)
    exact ⟨State.finishWide_self ha, htext, hresult, hcontrol, ⟨rfl, rfl⟩, rfl, rfl⟩
  case li =>
    obtain ⟨t, u, ht, hu, hvalue⟩ := exec_then_ori (BitVec.ofNat 16 k) (exec_shr_written d 128 ha)
    refine ⟨t, u, ht, hu, ?_⟩
    rw [hvalue, wideShr_of_le _ le_rfl, zeroWide_value, BitVec.zero_or, zextImmediate_toNat hk]
  case shl5or =>
    obtain ⟨t, u, ht, hu, hvalue⟩ := exec_then_ori (BitVec.ofNat 16 v) (exec_shl_written d 5 ha)
    refine ⟨t, u, ht, hu, ?_⟩
    rw [hvalue, wideShl_value, shl5_or_toNat _ hv]

end Sys2Proof.Machine

/-! PROOFS. Statements of 40_wide_integer.md: the result of each wide-integer command of written sources,
the shifts as arithmetic on exact naturals, and the identities of R122. -/

namespace Sys2Proof

/-! ### The two halves of a register's value (10_state.md R22) -/

/-- Bits 127..64 of a register's value are its high limb. -/
@[simp] theorem Wide.extract_value_high (x : Wide) : x.value.extractLsb' 64 64 = x.hi :=
  BitVec.extractLsb'_append_eq_left

/-- Bits 63..0 of a register's value are its low limb. -/
@[simp] theorem Wide.extract_value_low (x : Wide) : x.value.extractLsb' 0 64 = x.lo :=
  BitVec.extractLsb'_append_eq_right

end Sys2Proof

namespace Sys2Proof.Machine

/-! ### The command words as numbers (30_encoding.md R71) -/

/-- The word of a command is the sum of its fields. -/
theorem commandWord_fieldSum (op : Opcode) (rd rs1 rs2 : Reg) (imm : BitVec 16) :
    (commandWord op rd rs1 rs2 imm).toNat = fieldSum op.bits.toNat rd rs1 rs2 imm.toNat :=
  commandWord_toNat op rd rs1 rs2 imm

/-- In the word of a shift, the immediate is the amount, where the amount is encodable (R73). -/
theorem commandWord_shift (op : Opcode) (rd rs1 : Reg) {n : Nat} (h : n ≤ 255) :
    (commandWord op rd rs1 0 (BitVec.ofNat 16 n)).toNat = fieldSum op.bits.toNat rd rs1 0 n := by
  have himm : (BitVec.ofNat 16 n).toNat = n := by
    rw [BitVec.toNat_ofNat]
    omega
  rw [commandWord_fieldSum, himm]
  rfl

/-! ### What a wide-integer command of written sources leaves (R100 to R118) -/

/-- A finished command succeeded, and used no unwritten state. -/
theorem State.finishWide_completed (s : State) (rd : Reg) (x : Wide) :
    Completed s (s.finishWide rd x) :=
  ⟨⟨rfl, rfl⟩, rfl, rfl⟩

/-- A command of one written source completes with its value in `W[rd]`. -/
theorem wideCommand_completes {s : State} {a : Reg} (rd : Reg) (x : Wide)
    (h : s.wideWritten a = true) :
    ∃ t, wideCommand rd a x s = .next t ∧ t.wide rd = x ∧ Completed s t :=
  ⟨_, wideCommand_written rd x h, s.wide_finishWide_same rd x, s.finishWide_completed rd x⟩

/-- A command of two written sources completes with its value in `W[rd]`. -/
theorem wideCommand2_completes {s : State} {a b : Reg} (rd : Reg) (x : Wide)
    (ha : s.wideWritten a = true) (hb : s.wideWritten b = true) :
    ∃ t, wideCommand2 rd a b x s = .next t ∧ t.wide rd = x ∧ Completed s t := by
  refine ⟨s.finishWide rd x, ?_, s.wide_finishWide_same rd x, s.finishWide_completed rd x⟩
  rw [wideCommand2, State.widesWritten, ha, hb, Bool.and_self, endCommand_written]

/-! ### The shifts as arithmetic (R103, R108) -/

/-- The limb procedure shifts the value right: bit by bit, by the limb the bit comes from (R109). -/
theorem wideShr_value (x : Wide) (n : Nat) : (wideShr x n).value = x.value >>> n := by
  apply BitVec.eq_of_getLsbD_eq
  intro i hi
  unfold wideShr
  split_ifs with hzero hlimb hwide
  · rw [hzero, BitVec.ushiftRight_zero]
  · simp only [Wide.value, BitVec.getLsbD_append, BitVec.getLsbD_or, BitVec.getLsbD_shiftLeft,
      BitVec.getLsbD_ushiftRight]
    grind
  · simp only [Wide.value, BitVec.getLsbD_append, BitVec.getLsbD_ushiftRight, BitVec.getLsbD_zero,
      BitVec.ofNat_eq_ofNat]
    grind
  · rw [zeroWide_value, BitVec.ushiftRight_eq_zero (by omega)]

/-- SHL multiplies by a power of two, modulo 2^128 (R103). -/
theorem wideShl_toNat (x : Wide) (n : Nat) :
    (wideShl x n).value.toNat = x.value.toNat * 2 ^ n % 2 ^ 128 := by
  rw [wideShl_value, BitVec.toNat_shiftLeft, Nat.shiftLeft_eq]

/-- SHR divides by a power of two, rounding down (R108). -/
theorem wideShr_toNat (x : Wide) (n : Nat) :
    (wideShr x n).value.toNat = x.value.toNat / 2 ^ n := by
  rw [wideShr_value, BitVec.toNat_ushiftRight, Nat.shiftRight_eq_div_pow]

/-- Settles O12: the limb procedure's value is the product. -/
theorem shlResult : Obligations.ShlResult := by
  intro rd a n s hn
  refine ⟨commandWord_shift .shl rd a hn, fun ha => ?_⟩
  obtain ⟨t, ht, hwide, hdone⟩ := wideCommand_completes rd (wideShl (s.wide a) n) ha
  refine ⟨t, ht, ?_, fun hbig => ?_, hdone⟩
  · rw [hwide, wideShl_toNat]
  · rw [hwide, wideShl_value]
    exact BitVec.shiftLeft_eq_zero hbig

/-- Settles O13: the limb procedure's value is the quotient. -/
theorem shrResult : Obligations.ShrResult := by
  intro rd a n s hn
  refine ⟨commandWord_shift .shr rd a hn, fun ha => ?_⟩
  obtain ⟨t, ht, hwide, hdone⟩ := wideCommand_completes rd (wideShr (s.wide a) n) ha
  refine ⟨t, ht, ?_, fun hbig => ?_, hdone⟩
  · rw [hwide, wideShr_toNat]
  · rw [hwide, wideShr_value]
    exact BitVec.ushiftRight_eq_zero hbig

/-! ### MAKE, ORI, ORX, HI and LO (R100, R111, R113, R116, R118) -/

/-- A zero-extended half has the half's value (R116, R118). -/
theorem wideHalf_value (l : BitVec 64) : (wideHalf l).value = l.setWidth 128 :=
  (BitVec.setWidth_eq_append (by decide)).symm

/-- OR with a zero-extended 16-bit value leaves bits 127..16 alone (R111). -/
theorem extract_or_setWidth (v : BitVec 128) (k : BitVec 16) :
    (v ||| k.setWidth 128).extractLsb' 16 112 = v.extractLsb' 16 112 := by
  have hk : (k.setWidth 128).extractLsb' 16 112 = 0#112 := by
    apply BitVec.eq_of_getLsbD_eq
    intro i hi
    simp [BitVec.getLsbD_of_ge]
  rw [BitVec.extractLsb'_or, hk, BitVec.or_zero]

/-- Settles O11: `W[rd]` is the two low limbs joined. -/
theorem makeResult : Obligations.MakeResult := by
  intro rd a b s
  refine ⟨commandWord_fieldSum .make rd a b 0, fun ha hb => ?_⟩
  obtain ⟨t, ht, hwide, hdone⟩ :=
    wideCommand2_completes rd (wideMake (s.wide a).lo (s.wide b).lo) ha hb
  exact ⟨t, ht, by rw [hwide, wideMake], by rw [hwide, wideMake], hdone⟩

/-- Settles O14: the small value's bits 127..16 are 0. -/
theorem oriResult : Obligations.OriResult := by
  intro rd a k s
  refine ⟨commandWord_fieldSum .ori rd a 0 k, fun ha => ?_⟩
  obtain ⟨t, ht, hwide, hdone⟩ :=
    wideCommand_completes rd (wideOr (s.wide a) (smallImmediate k)) ha
  have hvalue : (t.wide rd).value = (s.wide a).value ||| k.setWidth 128 := by
    rw [hwide, wideOr_value, smallImmediate_value]
  exact ⟨t, ht, hvalue, by rw [hvalue, extract_or_setWidth], hdone⟩

/-- Settles O15: ORX's small value is the zero-extended low limb. -/
theorem orxResult : Obligations.OrxResult := by
  intro rd a b s
  refine ⟨commandWord_fieldSum .orx rd a b 0, fun ha hb => ?_⟩
  obtain ⟨t, ht, hwide, hdone⟩ :=
    wideCommand2_completes rd (wideOr (s.wide a) (smallRegister (s.wide b))) ha hb
  have hsmall : (smallRegister (s.wide b)).value = (s.wide b).lo.setWidth 128 :=
    wideHalf_value (s.wide b).lo
  exact ⟨t, ht, by rw [hwide, wideOr_value, hsmall], hdone⟩

/-- Settles O16: `W[rd]` is the high limb, zero-extended. -/
theorem hiResult : Obligations.HiResult := by
  intro rd a s
  refine ⟨commandWord_fieldSum .hi rd a 0 0, fun ha => ?_⟩
  obtain ⟨t, ht, hwide, hdone⟩ := wideCommand_completes rd (wideHalf (s.wide a).hi) ha
  exact ⟨t, ht, by rw [hwide, wideHalf], by rw [hwide, wideHalf, Wide.extract_value_high], hdone⟩

/-- Settles O17: `W[rd]` is the low limb, zero-extended. -/
theorem loResult : Obligations.LoResult := by
  intro rd a s
  refine ⟨commandWord_fieldSum .lo rd a 0 0, fun ha => ?_⟩
  obtain ⟨t, ht, hwide, hdone⟩ := wideCommand_completes rd (wideHalf (s.wide a).lo) ha
  exact ⟨t, ht, by rw [hwide, wideHalf], by rw [hwide, wideHalf, Wide.extract_value_low], hdone⟩

/-! ### Identities (R122) -/

/-- A left shift by a limb moves the low limb up. -/
theorem wideShl_limb (x : Wide) : wideShl x 64 = ⟨x.lo, 0⟩ := by
  simp [wideShl]

/-- The two halves of a register, shifted and ORed together, are the register. -/
theorem wideOr_halves (x : Wide) :
    wideOr (wideShl (wideHalf x.hi) 64) (smallRegister (wideHalf x.lo)) = x := by
  simp [wideShl_limb, wideHalf, smallRegister, wideOr]

/-- A left shift and back keeps the bits that were not shifted out. -/
theorem wideShr_wideShl_toNat (x : Wide) {n : Nat} (h : n ≤ 128) :
    (wideShr (wideShl x n) n).value.toNat = x.value.toNat % 2 ^ (128 - n) := by
  have hsplit : 2 ^ 128 = 2 ^ (128 - n) * 2 ^ n := by rw [← Nat.pow_add, Nat.sub_add_cancel h]
  rw [wideShr_toNat, wideShl_toNat, hsplit, Nat.mul_mod_mul_right,
    Nat.mul_div_cancel _ (Nat.two_pow_pos n)]

/-- Two left shifts add their amounts. -/
theorem wideShl_wideShl (x : Wide) (a b : Nat) : wideShl (wideShl x a) b = wideShl x (a + b) :=
  Wide.value_inj (by rw [wideShl_value, wideShl_value, wideShl_value, BitVec.shiftLeft_add])

/-- OR with its own low limb leaves a register as it is. -/
theorem wideOr_smallRegister_self (x : Wide) : wideOr x (smallRegister x) = x := by
  simp [wideOr, smallRegister]

/-- Settles O19: each identity by its lemma; of MAKE's, HI and LO take the limbs apart that it joined. -/
theorem wideIdentities : Obligations.WideIdentities :=
  fun x _ _ a b => ⟨rfl, rfl, wideOr_halves x, wideShr_wideShl_toNat x,
    fun _ => wideShl_wideShl x a b, wideOr_smallImmediate_zero x, wideOr_smallRegister_self x⟩

end Sys2Proof.Machine

/-! PROOFS. Statements of 41_base32_codec.md: the two tables, the text ENC writes and its order, DEC's
outcomes and value, and what encoding and decoding one after the other gives (R130 to R154). -/

namespace Sys2Proof.Machine

/-! ### The tables (R131, R140) -/

/-- A larger symbol has a larger code (R131). -/
theorem encTable_lt : ∀ g h : BitVec 5, g < h → encTable g < encTable h := by
  decide

/-- Settles O20: each code is read off the table. -/
theorem encTableAsListed : Obligations.EncTableAsListed :=
  ⟨by decide, encTable_lt⟩

/-- No two rows of DEC_TABLE have the same code (R140). -/
theorem decEntries_nodup : (decEntries.map (·.1)).Nodup := by
  decide

/-- A code's value is that of its one row (R140). -/
theorem decTable_eq_some_iff {b : Byte} {v : BitVec 5} : decTable b = some v ↔ (b, v) ∈ decEntries := by
  have hrow : ∀ {w}, decTable b = some w → (b, w) ∈ decEntries := by
    intro w h
    obtain ⟨before, after, hsplit, -⟩ := List.lookup_eq_some_iff.mp h
    rw [hsplit]
    exact List.mem_append_cons_self
  refine ⟨hrow, fun h => ?_⟩
  have hsome : (decTable b).isSome := List.lookup_isSome_iff.mpr ⟨_, h, beq_self_eq_true b⟩
  obtain ⟨w, hw⟩ := Option.isSome_iff_exists.mp hsome
  have hsame : (b, w) = (b, v) := List.inj_on_of_nodup_map decEntries_nodup (hrow hw) h rfl
  rw [hw, (Prod.mk.inj hsame).2]

/-- A row of DEC_TABLE is a digit's, or a letter's in upper or lower case (R140). -/
theorem mem_decEntries {b : Byte} {v : BitVec 5} :
    (b, v) ∈ decEntries ↔
      (b, v) ∈ decDigits ∨ ∃ e ∈ decLetters, e.2.2 = v ∧ (e.1 = b ∨ e.2.1 = b) := by
  simp only [decEntries, List.mem_append, List.mem_map, Prod.mk.injEq]
  grind

/-- Upper case begins at 0x41, and lower case is 0x20 above it (R140). -/
theorem decLetters_cases : ∀ e ∈ decLetters, 0x41 ≤ e.1.toNat ∧ e.2.1.toNat = e.1.toNat + 0x20 := by
  simp [decLetters]

/-- The digits come before upper case (R140). -/
theorem decDigits_lt : ∀ e ∈ decDigits, e.1.toNat < 0x41 := by
  simp [decDigits]

/-- Each row of DEC_TABLE has a code of its own, so there are as many valid codes as rows (R140). -/
theorem countP_decTable :
    (List.range 256).countP (fun n => (decTable (BitVec.ofNat 8 n)).isSome) = decEntries.length := by
  have hcodes : (decEntries.map (·.1.toNat)).Nodup := by
    have h := decEntries_nodup.map (f := BitVec.toNat) fun _ _ => BitVec.eq_of_toNat_eq
    rwa [List.map_map] at h
  have hperm : ((List.range 256).filter fun n => (decTable (BitVec.ofNat 8 n)).isSome).Perm
      (decEntries.map (·.1.toNat)) := by
    refine (List.perm_ext_iff_of_nodup (List.nodup_range.filter _) hcodes).mpr fun n => ?_
    rw [List.mem_filter, List.mem_range, List.mem_map, decTable, List.lookup_isSome_iff]
    constructor
    · rintro ⟨hn, e, he, heq⟩
      refine ⟨e, he, ?_⟩
      rw [← eq_of_beq heq, BitVec.toNat_ofNat, Nat.mod_eq_of_lt hn]
    · rintro ⟨e, he, rfl⟩
      exact ⟨e.1.isLt, e, he, by simp⟩
  rw [List.countP_eq_length_filter, hperm.length_eq, List.length_map]

/-- DEC_TABLE by its digits and upper-case letters alone: lower case is 0x20 above upper (R140). -/
theorem decTable_iff_row {b : Byte} {v : BitVec 5} :
    decTable b = some v ↔
      ∃ row ∈ decDigits.map (fun e => (e.1.toNat, e.2.toNat)) ++
          decLetters.map (fun e => (e.1.toNat, e.2.2.toNat)),
        v.toNat = row.2 ∧ (b.toNat = row.1 ∨ (0x41 ≤ row.1 ∧ b.toNat = row.1 + 0x20)) := by
  simp only [decTable_eq_some_iff, mem_decEntries, List.mem_append, List.mem_map, or_and_right,
    exists_or, exists_exists_and_eq_and]
  refine or_congr ⟨?_, ?_⟩ ⟨?_, ?_⟩
  · exact fun h => ⟨_, h, rfl, .inl rfl⟩
  · rintro ⟨e, he, hv, hb⟩
    have hdigit := decDigits_lt e he
    obtain rfl := BitVec.eq_of_toNat_eq hv
    obtain rfl : b = e.1 := BitVec.eq_of_toNat_eq (by omega)
    exact he
  · rintro ⟨e, he, rfl, rfl | rfl⟩
    · exact ⟨e, he, rfl, .inl rfl⟩
    · exact ⟨e, he, rfl, .inr (decLetters_cases e he)⟩
  · rintro ⟨e, he, hv, hb⟩
    obtain ⟨-, hlower⟩ := decLetters_cases e he
    exact ⟨e, he, BitVec.eq_of_toNat_eq hv.symm, hb.imp (fun h => BitVec.eq_of_toNat_eq h.symm)
      fun h => BitVec.eq_of_toNat_eq (hlower.trans h.2.symm)⟩

/-- Settles O23: the listed rows are the model's digits and its letters in upper case. -/
theorem decTableAsListed : Obligations.DecTableAsListed :=
  ⟨fun _ _ => decTable_iff_row, countP_decTable⟩

/-! ### ENC (R132, R133, R152) -/

/-- ENC of a written source finishes with its value's text (log 2). -/
theorem exec_enc_written {s : State} {a : Reg} (h : s.wideWritten a = true) :
    exec (.enc a) s = .next (s.finishText (encodeText (s.wide a).value)) := by
  rw [exec, execEnc, h, endCommand_written]

/-- Group i is the digit of 4V of its place (R132). -/
theorem encGroup_eq_ofNat (v : BitVec 128) {i : Nat} (h : i ≤ 25) :
    encGroup v i = BitVec.ofNat 5 (v.toNat * 4 / 32 ^ (25 - i)) :=
  BitVec.eq_of_toNat_eq (by rw [encGroup_toNat v h, BitVec.toNat_ofNat])

/-- Character k of T after a value's text is written (R132, R133). -/
theorem State.finishText_encodeText_get (s : State) (v : BitVec 128) {k : Fin 32} (h : k.val < 26) :
    (s.finishText (encodeText v)).t[k] = encTable (encGroup v k) := by
  have hlen : k.val < (encodeText v).length := h
  exact (s.writeText_get _ k).trans ((dif_pos hlen).trans (encodeText_get v k h))

/-- A byte of a written text is marked (10_state.md R34). -/
theorem State.finishText_encodeText_mark (s : State) (v : BitVec 128) {k : Fin 32} (h : k.val < 26) :
    (s.finishText (encodeText v)).tWritten[k] = true :=
  (s.writeText_mark _ k).trans (if_pos h)

/-- Settles O21: each character is the symbol of its group, and each group a digit of 4V. -/
theorem encResult : Obligations.EncResult := by
  intro a s
  refine ⟨commandWord_fieldSum .enc 0 a 0 0, fun ha => ⟨_, exec_enc_written ha, fun k hk => ⟨?_, ?_⟩,
    rfl, s.finishText_frame (encodeText_length _), ⟨rfl, rfl⟩, rfl, rfl⟩⟩
  · rw [State.finishText_encodeText_get s _ hk, encGroup_eq_ofNat _ (by omega)]
  · exact s.finishText_encodeText_mark _ hk

/-- The low five bits of a register are those of its low limb (10_state.md R22). -/
theorem lo_setWidth5 (x : Wide) : x.lo.setWidth 5 = x.value.setWidth 5 := by
  rw [Wide.value, BitVec.setWidth_append, dif_pos (by decide)]

/-- Settles O22: a shift leaves the digit of its place lowest. -/
theorem encGroupsByShifts : Obligations.EncGroupsByShifts := by
  intro x
  refine ⟨fun i hi => BitVec.eq_of_toNat_eq ?_, BitVec.eq_of_toNat_eq ?_⟩
  · have hpow : 32 ^ (25 - i) = 2 ^ (123 - 5 * i) * 2 ^ 2 := by
      rw [show 32 = 2 ^ 5 from rfl, ← pow_mul, show 5 * (25 - i) = 123 - 5 * i + 2 by omega, pow_add]
    have hplace : x.value.toNat * 4 / 32 ^ (25 - i) = x.value.toNat / 2 ^ (123 - 5 * i) := by
      rw [hpow]
      exact Nat.mul_div_mul_right _ _ (by decide)
    rw [encGroup_toNat _ (by omega), hplace, lo_setWidth5,
      BitVec.toNat_setWidth, wideShr_toNat]
  · rw [encGroup_toNat _ le_rfl, lo_setWidth5, BitVec.toNat_setWidth, wideShl_toNat]
    omega

/-! ### What a decoding comes to (R142 to R147) -/

/-- A text has digits exactly where it passes the character check (R142, R146). -/
theorem map_decTable_iff {cs : List Byte} {ds : List (BitVec 5)} :
    cs.map decTable = ds.map some ↔ firstInvalid cs = none ∧ digitsOf cs = ds := by
  refine ⟨digits_of_map, ?_⟩
  rintro ⟨hvalid, rfl⟩
  rw [firstInvalid, List.findIdx?_eq_none_iff] at hvalid
  induction cs with
  | nil => rfl
  | cons c cs ih =>
    obtain ⟨hc, hcs⟩ := List.forall_mem_cons.mp hvalid
    obtain ⟨d, hd⟩ := Option.isSome_iff_exists.mp (Option.isNone_eq_false_iff.mp hc)
    rw [List.map_cons, ih hcs, hd, digitsOf, digitsOf, List.filterMap_cons_some hd, List.map_cons]

/-- The digits of a text are those of its characters, which are written. -/
theorem textDigits_iff {s : State} {len : Nat} {ds : List (BitVec 5)} (hl : len ≤ 32) :
    TextDigits s len ds ↔ s.textWritten len = true ∧ (s.text len).map decTable = ds.map some := by
  refine ⟨fun h => ⟨h.written, h.map_text hl⟩, fun ⟨hw, hmap⟩ => ⟨?_, fun k hk => ⟨?_, ?_⟩⟩⟩
  · have hlen := congrArg List.length hmap
    simpa [hl] using hlen.symm
  · exact State.textWritten_iff.mp hw k hk
  · have hget := congrArg (·[k.val]?) hmap
    simp only [List.getElem?_map, s.text_get? len k hk, Option.map_some] at hget
    cases hd : ds[k.val]? with
    | none => simp [hd] at hget
    | some d => simpa [hd] using hget

/-- The first invalid character of a state's text (R146). -/
theorem firstInvalid_text (s : State) (len : Nat) (k : Fin 32) :
    firstInvalid (s.text len) = some k.val ↔ k.val < len ∧ FirstInvalidAt s k := by
  have hlen : k.val < (s.text len).length ↔ k.val < len := by simp
  have hget : ∀ j (hj : j < (s.text len).length), (s.text len)[j] = s.t[j]'(by simp at hj; omega) := by
    simp [State.text]
  rw [firstInvalid_eq_some]
  constructor
  · rintro ⟨hk, hnone, hbefore⟩
    rw [hget] at hnone
    refine ⟨hlen.mp hk, hnone, fun j hj => ?_⟩
    have hvalid := hbefore j.val hj
    rwa [hget] at hvalid
  · rintro ⟨hk, hnone, hbefore⟩
    refine ⟨hlen.mpr hk, by rwa [hget], fun j hj => ?_⟩
    rw [hget]
    exact hbefore ⟨j, by omega⟩ hj

/-! Each outcome of a decoding, by what it reports (R144). -/

/-- A decoding reports the length exactly where that is not an accepted one (R145). -/
theorem decodeText_badLength_iff {strict : BitVec 1} {len : Nat} {cs : List Byte} :
    decodeText strict len cs = .badLength ↔ lengthOk len = false := by
  unfold decodeText
  split <;> rename_i hl
  · split
    · simp [hl]
    · dsimp only
      split <;> simp [hl]
  · simpa using hl

/-- A decoding reports the first invalid character of a text of an accepted length (R146). -/
theorem decodeText_badChar_iff {strict : BitVec 1} {len : Nat} {cs : List Byte} {k : Nat} :
    decodeText strict len cs = .badChar k ↔ lengthOk len = true ∧ firstInvalid cs = some k := by
  unfold decodeText
  split <;> rename_i hl
  · split <;> rename_i hf
    · simp [hl, hf]
    · dsimp only
      split <;> simp [hf]
  · simp [hl]

/-- A decoding reports the pad of a text of an accepted length that passes the character check (R147). -/
theorem decodeText_badPad_iff {strict : BitVec 1} {len : Nat} {cs : List Byte} :
    decodeText strict len cs = .badPad ↔ lengthOk len = true ∧ ∃ ds : List (BitVec 5),
      cs.map decTable = ds.map some ∧ strict = 1 ∧ padBits len (accumulate ds) ≠ 0 := by
  unfold decodeText
  split <;> rename_i hl
  · split <;> rename_i hf
    · simp [map_decTable_iff, hl, hf]
    · simp [map_decTable_iff, hl, hf]
  · simp [hl]

/-! The same of the text a state holds. -/

/-- The decoding of the text a state holds (R143). -/
def State.decoded (s : State) : Decoded :=
  decodeText s.strict s.tlen.toNat (s.text s.tlen.toNat)

/-- The text of a state has a wrong length exactly where TLEN is no accepted one (R145). -/
theorem State.decoded_badLength_iff {s : State} :
    s.decoded = .badLength ↔ s.tlen.toNat ≠ 25 ∧ s.tlen.toNat ≠ 26 := by
  rw [State.decoded, decodeText_badLength_iff, ← Bool.not_eq_true, lengthOk_iff, not_or]

/-- The text of a state is rejected at its first invalid character (R146). -/
theorem State.decoded_badChar_iff {s : State} (k : Fin 32) :
    s.decoded = .badChar k.val ↔
      (s.tlen.toNat = 25 ∨ s.tlen.toNat = 26) ∧ k.val < s.tlen.toNat ∧ FirstInvalidAt s k := by
  rw [State.decoded, decodeText_badChar_iff, lengthOk_iff, firstInvalid_text]

/-- The character reported is one of T. -/
theorem State.lt_of_decoded_badChar {s : State} {k : Nat} (h : s.decoded = .badChar k) : k < 32 := by
  obtain ⟨-, hfirst⟩ := decodeText_badChar_iff.mp h
  obtain ⟨hk, -⟩ := firstInvalid_eq_some.mp hfirst
  rw [State.text_length] at hk
  omega

/-- Bits are discarded of 26 characters only (R142, R147). -/
theorem padBits_ne_zero_iff {len : Nat} {ds : List (BitVec 5)} (hlen : ds.length = len)
    (hl : len = 25 ∨ len = 26) :
    padBits len (accumulate ds) ≠ 0 ↔ len = 26 ∧ radix32 ds % 4 ≠ 0 := by
  obtain ⟨hpad26, hpad25⟩ := padBits_eq_zero ds
  rcases hl with rfl | rfl
  · simp [hpad25]
  · rw [Ne, hpad26 hlen]
    simp

/-- A written text of a state is rejected for its pad exactly where it has digits, 26 of them, whose
discarded bits strict mode does not let pass (R147). -/
theorem State.decoded_badPad_iff {s : State}
    (hw : (s.tlen.toNat = 25 ∨ s.tlen.toNat = 26) → s.textWritten s.tlen.toNat = true) :
    s.decoded = .badPad ↔
      s.tlen.toNat = 26 ∧ s.strict = 1 ∧ ∃ ds, TextDigits s 26 ds ∧ radix32 ds % 4 ≠ 0 := by
  rw [State.decoded, decodeText_badPad_iff, lengthOk_iff]
  constructor
  · rintro ⟨hl, ds, hmap, hstrict, hpad⟩
    have hds : TextDigits s s.tlen.toNat ds := (textDigits_iff (by omega)).mpr ⟨hw hl, hmap⟩
    obtain ⟨h26, hrest⟩ := (padBits_ne_zero_iff hds.1 hl).mp hpad
    exact ⟨h26, hstrict, ds, h26 ▸ hds, hrest⟩
  · rintro ⟨h26, hstrict, ds, hds, hrest⟩
    rw [h26]
    exact ⟨.inr rfl, ds, hds.map_text (by decide), hstrict,
      (padBits_ne_zero_iff hds.1 (.inr rfl)).mpr ⟨rfl, hrest⟩⟩

/-- A text of digits that no mode rejects has their value (R142, R147). -/
theorem TextDigits.decoded {s : State} {ds : List (BitVec 5)} (h : TextDigits s s.tlen.toNat ds)
    (hl : s.tlen.toNat = 25 ∨ s.tlen.toNat = 26)
    (hpad : s.strict = 1 → s.tlen.toNat = 26 → radix32 ds % 4 = 0) :
    s.decoded = .value (decodedValue s.tlen.toNat (accumulate ds)) := by
  rw [State.decoded, decodeText_of_digits (lengthOk_iff.mpr hl) (h.map_text (by omega)), if_neg]
  rintro ⟨hstrict, hne⟩
  obtain ⟨h26, hrest⟩ := (padBits_ne_zero_iff h.1 hl).mp hne
  exact hrest (hpad hstrict h26)

/-! ### DEC (R142 to R147) -/

/-- DEC ends as the decoding of its text does, where what it reads is written (log 2). -/
theorem exec_dec_written {s : State} (rd : Reg)
    (hw : (s.tlen.toNat = 25 ∨ s.tlen.toNat = 26) → s.textWritten s.tlen.toNat = true) :
    exec (.dec rd) s = .next (s.finishDecode rd s.decoded) := by
  have h : s.decodeWritten = true :=
    State.decodeWritten_iff.mpr fun hl => State.textWritten_iff.mp (hw hl)
  rw [exec, execDec, h, endCommand_written, State.decoded]

/-- An error writes nothing but STATUS (60_exceptions.md R204). -/
theorem State.raise_statusOnly (s : State) (e : ErrorKind) (d : BitVec 4) (k : BitVec 5) :
    StatusOnly s (s.raise e d k) :=
  ⟨fun _ => ⟨rfl, rfl⟩, ⟨rfl, rfl, rfl⟩, ⟨rfl, rfl⟩, ⟨rfl, rfl, rfl⟩, rfl, rfl⟩

/-- Where the decoding comes to an error, DEC completes with it (R144; 60_exceptions.md R204). -/
theorem exec_dec_fails {s : State} (rd : Reg) {d : Decoded} {detail : BitVec 4} {index : BitVec 5}
    (hw : (s.tlen.toNat = 25 ∨ s.tlen.toNat = 26) → s.textWritten s.tlen.toNat = true)
    (hd : s.decoded = d) (herr : s.finishDecode rd d = s.raise .invalidFormat detail index) :
    ∃ t, exec (.dec rd) s = .next t ∧ t.Failed 1 detail index ∧ StatusOnly s t :=
  ⟨_, by rw [exec_dec_written rd hw, hd, herr], ⟨rfl, rfl⟩, s.raise_statusOnly ..⟩

/-- Settles O24: of a wrong length no character is read. -/
theorem decLengthError : Obligations.DecLengthError := by
  intro rd s h25 h26
  have hwritten (hl : s.tlen.toNat = 25 ∨ s.tlen.toNat = 26) :
      s.textWritten s.tlen.toNat = true := absurd hl (not_or.mpr ⟨h25, h26⟩)
  exact exec_dec_fails rd hwritten (State.decoded_badLength_iff.mpr ⟨h25, h26⟩) rfl

/-- Settles O25: the decoding reports the first invalid character. -/
theorem decCharError : Obligations.DecCharError := by
  refine ⟨by decide, by decide, fun rd s k hl hw hk hfirst => ?_⟩
  exact exec_dec_fails rd (fun _ => hw) ((State.decoded_badChar_iff k).mpr ⟨hl, hk, hfirst⟩) rfl

/-- An accepted text's value goes to `W[rd]` (R142, R143). -/
theorem exec_dec_accepted {s : State} {ds : List (BitVec 5)} (rd : Reg)
    (h : TextDigits s s.tlen.toNat ds) (hl : s.tlen.toNat = 25 ∨ s.tlen.toNat = 26)
    (hpad : s.strict = 1 → s.tlen.toNat = 26 → radix32 ds % 4 = 0) :
    exec (.dec rd) s =
      .next (s.finishWide rd (Wide.ofValue (decodedValue s.tlen.toNat (accumulate ds)))) := by
  rw [exec_dec_written rd fun _ => h.written, h.decoded hl hpad, State.finishDecode]

/-- Settles O26: an accepted text is one whose pad the mode lets pass. -/
theorem decStrictMode : Obligations.DecStrictMode := by
  intro rd s ds h
  have haccepts (hl : s.tlen.toNat = 25 ∨ s.tlen.toNat = 26)
      (hpad : s.strict = 1 → s.tlen.toNat = 26 → radix32 ds % 4 = 0) :
      ∃ t, exec (.dec rd) s = .next t ∧ Completed s t :=
    ⟨_, exec_dec_accepted rd h hl hpad, s.finishWide_completed rd _⟩
  refine ⟨fun h26 hstrict hrest => ?_, fun h26 _ hrest => haccepts (.inr h26) fun _ _ => hrest,
    fun h26 hfree => haccepts (.inr h26) fun hstrict => ?_,
    fun h25 => haccepts (.inl h25) fun _ h26 => by omega⟩
  · have hdec := (State.decoded_badPad_iff fun _ => h.written).mpr ⟨h26, hstrict, ds, h26 ▸ h, hrest⟩
    exact exec_dec_fails rd (fun _ => h.written) hdec rfl
  · rw [hfree] at hstrict
    exact absurd hstrict (by decide)

/-- Settles O27: `W[rd]` is the number the digits write, without the discarded bits. -/
theorem decResult : Obligations.DecResult := by
  intro rd s ds h hl hpad
  obtain ⟨h26, h25⟩ := decodedValue_toNat ds
  refine ⟨commandWord_fieldSum .dec rd 0 0 0, _, exec_dec_accepted rd h hl hpad, fun hlen => ?_,
    fun hlen => ?_, s.wideWritten_finishWide_same rd _, s.finishWide_frame rd _,
    s.finishWide_completed rd _⟩
  · rw [State.wide_finishWide_same, Wide.value_ofValue, hlen, h26 (h.1.trans hlen)]
  · rw [State.wide_finishWide_same, Wide.value_ofValue, hlen, h25 (h.1.trans hlen)]

/-- STATUS after a decoding (R144; 60_exceptions.md R203). -/
def Decoded.status : Decoded → Status
  | .value _ => Status.ok
  | .badLength => ⟨1, 1, 0⟩
  | .badChar k => ⟨1, 2, BitVec.ofNat 5 k⟩
  | .badPad => ⟨1, 3, 0⟩

@[simp] theorem State.finishDecode_status (s : State) (rd : Reg) (d : Decoded) :
    (s.finishDecode rd d).status = d.status := by
  cases d <;> rfl

/-- Only a wrong length shows as LENGTH. -/
theorem Decoded.status_length_iff {d : Decoded} : d.status = ⟨1, 1, 0⟩ ↔ d = .badLength := by
  cases d <;> simp [Decoded.status, Status.ok]

/-- Only an invalid character shows as CHAR, at its index. -/
theorem Decoded.status_char_iff {d : Decoded} {i : BitVec 5} :
    d.status = ⟨1, 2, i⟩ ↔ ∃ k, d = .badChar k ∧ BitVec.ofNat 5 k = i := by
  cases d <;> simp [Decoded.status, Status.ok]

/-- Only discarded bits show as PAD. -/
theorem Decoded.status_pad_iff {d : Decoded} : d.status = ⟨1, 3, 0⟩ ↔ d = .badPad := by
  cases d <;> simp [Decoded.status, Status.ok]

/-- INDEX names the reported character of T. -/
theorem State.decoded_status_char_iff {s : State} (k : Fin 32) :
    s.decoded.status = ⟨1, 2, BitVec.ofNat 5 k.val⟩ ↔ s.decoded = .badChar k.val := by
  rw [Decoded.status_char_iff]
  constructor
  · rintro ⟨j, hj, hindex⟩
    have hj32 := State.lt_of_decoded_badChar hj
    have hk32 := k.isLt
    have hnat := congrArg BitVec.toNat hindex
    rw [BitVec.toNat_ofNat, BitVec.toNat_ofNat] at hnat
    rwa [show k.val = j by omega]
  · exact fun h => ⟨_, h, rfl⟩

/-- Settles O28: STATUS tells which outcome the decoding has. -/
theorem decErrorsExactly : Obligations.DecErrorsExactly := by
  intro rd s hw
  refine ⟨_, exec_dec_written rd hw, ?_, fun k => ?_, ?_, ?_⟩
  · rw [State.finishDecode_status, Decoded.status_length_iff, State.decoded_badLength_iff]
  · rw [State.finishDecode_status, State.decoded_status_char_iff, State.decoded_badChar_iff]
  · rw [State.finishDecode_status, Decoded.status_pad_iff, State.decoded_badPad_iff hw]
  · rw [State.finishDecode_status]
    cases hd : s.decoded with
    | value v => exact .inl rfl
    | badLength => exact .inr (.inl rfl)
    | badChar k => exact .inr (.inr (.inl ⟨⟨k, State.lt_of_decoded_badChar hd⟩, rfl⟩))
    | badPad => exact .inr (.inr (.inr rfl))

/-! ### The digits ENC writes -/

/-- The 26 groups of a value, most significant first (R132). -/
def encDigits (v : BitVec 128) : List (BitVec 5) := (List.range 26).map (encGroup v)

/-- A value's text is the symbols of its groups (R132). -/
theorem encodeText_eq_map (v : BitVec 128) : encodeText v = (encDigits v).map encTable := by
  rw [encDigits, List.map_map]
  rfl

/-- The first n groups write the digits of 4V down to their place. -/
theorem radix32_groups (v : BitVec 128) {n : Nat} (h : n ≤ 26) :
    radix32 ((List.range n).map (encGroup v)) = v.toNat * 4 / 32 ^ (26 - n) := by
  induction n with
  | zero =>
    have hv := v.isLt
    simp only [List.range_zero, List.map_nil, radix32, List.foldl_nil]
    omega
  | succ n ih =>
    have hpow : 32 ^ (26 - n) = 32 ^ (26 - (n + 1)) * 32 := by
      rw [← pow_succ]
      congr 1
      omega
    rw [List.range_succ, List.map_append, List.map_singleton, radix32_append, ih (by omega),
      encGroup_toNat v (by omega), hpow, ← Nat.div_div_eq_div_mul,
      show 25 - n = 26 - (n + 1) by omega]
    omega

/-- The groups write 4V (R132). -/
theorem radix32_encDigits (v : BitVec 128) : radix32 (encDigits v) = v.toNat * 4 := by
  rw [encDigits, radix32_groups v le_rfl, Nat.sub_self, pow_zero, Nat.div_one]

@[simp] theorem encDigits_length (v : BitVec 128) : (encDigits v).length = 26 := rfl

/-- A number in base 32, by its most significant digit. -/
theorem radix32_cons (d : BitVec 5) (ds : List (BitVec 5)) :
    radix32 (d :: ds) = d.toNat * 32 ^ ds.length + radix32 ds := by
  induction ds using List.reverseRecOn with
  | nil => simp [radix32]
  | append_singleton ds e ih =>
    rw [← List.cons_append, radix32_append, ih, radix32_append, List.length_append,
      List.length_singleton, pow_succ]
    ring

/-- As many digits that write the same number are the same. -/
theorem radix32_inj {ds es : List (BitVec 5)} (hlen : ds.length = es.length)
    (h : radix32 ds = radix32 es) : ds = es := by
  induction ds using List.reverseRecOn generalizing es with
  | nil => exact (List.length_eq_zero_iff.mp hlen.symm).symm
  | append_singleton ds d ih =>
    obtain rfl | ⟨es, e, rfl⟩ := es.eq_nil_or_concat'
    · simp at hlen
    · rw [radix32_append, radix32_append] at h
      have hd := d.isLt
      have he := e.isLt
      obtain rfl : d = e := BitVec.eq_of_toNat_eq (by omega)
      rw [ih (by simpa using hlen) (by omega)]

/-- Of as many digits, the smaller number's come first in lexicographic order. -/
theorem lt_of_radix32_lt {ds es : List (BitVec 5)} (hlen : ds.length = es.length)
    (h : radix32 ds < radix32 es) : ds < es := by
  induction ds generalizing es with
  | nil =>
    obtain rfl := List.length_eq_zero_iff.mp hlen.symm
    exact absurd h (lt_irrefl _)
  | cons d ds ih =>
    cases es with
    | nil => simp at hlen
    | cons e es =>
      have hlen' : ds.length = es.length := by simpa using hlen
      have hes := radix32_lt es
      rw [radix32_cons, radix32_cons, hlen'] at h
      rw [List.cons_lt_cons_iff]
      rcases lt_trichotomy d.toNat e.toNat with hlt | heq | hgt
      · exact .inl hlt
      · rw [heq] at h
        exact .inr ⟨BitVec.eq_of_toNat_eq heq, ih hlen' (by omega)⟩
      · have hmul := Nat.mul_le_mul_right (32 ^ es.length) hgt
        rw [Nat.succ_mul] at hmul
        omega

/-- A smaller value has a smaller text. -/
theorem encodeText_lt {v1 v2 : BitVec 128} (h : v1 < v2) : encodeText v1 < encodeText v2 := by
  have hnat : v1.toNat < v2.toNat := h
  rw [encodeText_eq_map, encodeText_eq_map]
  refine List.map_lt encTable_lt (lt_of_radix32_lt (by simp) ?_)
  rw [radix32_encDigits, radix32_encDigits]
  omega

/-- Settles O32: a larger value has a larger text. -/
theorem textOrderIsValueOrder : Obligations.TextOrderIsValueOrder := by
  intro v1 v2
  refine ⟨encodeText_lt, fun h => ?_⟩
  rcases lt_trichotomy v1.toNat v2.toNat with hlt | heq | hgt
  · exact hlt
  · rw [BitVec.eq_of_toNat_eq heq] at h
    exact absurd h (List.lt_irrefl _)
  · exact absurd h (List.lt_asymm (encodeText_lt hgt))

/-- Digit k of the groups. -/
theorem encDigits_get? (v : BitVec 128) {k : Nat} (h : k < 26) :
    (encDigits v)[k]? = some (encGroup v k) := by
  rw [encDigits, List.getElem?_map, List.getElem?_range h, Option.map_some]

/-- ENC leaves the digits of its groups in T (R132, R133). -/
theorem textDigits_finishText (s : State) (v : BitVec 128) :
    TextDigits (s.finishText (encodeText v)) 26 (encDigits v) := by
  refine ⟨rfl, fun k hk => ⟨s.finishText_encodeText_mark v hk, ?_⟩⟩
  rw [s.finishText_encodeText_get v hk, decTable_encTable, encDigits_get? v hk]

/-- Settles O29: the groups write 4V, whose discarded bits are 0 and whose quotient is V. -/
theorem encDecRoundTrip : Obligations.EncDecRoundTrip := by
  intro a rd s ha
  obtain ⟨hvalue, -⟩ := decodedValue_toNat (encDigits (s.wide a).value)
  refine ⟨_, _, exec_enc_written ha,
    exec_dec_accepted rd (textDigits_finishText s _) (.inr rfl) fun _ _ => ?_, ?_, ⟨rfl, rfl⟩, rfl⟩
  · rw [radix32_encDigits]
    omega
  · have h26 : (s.finishText (encodeText (s.wide a).value)).tlen.toNat = 26 := rfl
    rw [State.wide_finishWide_same, h26]
    refine Wide.value_inj ((Wide.value_ofValue _).trans (BitVec.eq_of_toNat_eq ?_))
    rw [hvalue rfl, radix32_encDigits]
    omega

/-- 26 digits that write 4V are the groups of V. -/
theorem encDigits_eq {v : BitVec 128} {ds : List (BitVec 5)} (hlen : ds.length = 26)
    (h : radix32 ds = v.toNat * 4) : encDigits v = ds :=
  radix32_inj hlen.symm ((radix32_encDigits v).trans h.symm)

/-- Clearing a digit's two low bits. -/
theorem and_1C_toNat (d : BitVec 5) : (d &&& 0x1C).toNat = d.toNat / 4 * 4 := by
  revert d
  decide

/-- The groups of a decoded 26-character text: its digits, the last without the discarded bits
(R142, R154). -/
theorem encDigits_decodedValue {init : List (BitVec 5)} (d : BitVec 5) (h : init.length = 25) :
    encDigits (decodedValue 26 (accumulate (init ++ [d]))) = init ++ [d &&& 0x1C] := by
  obtain ⟨hvalue, -⟩ := decodedValue_toNat (init ++ [d])
  refine encDigits_eq (by simpa using h) ?_
  rw [hvalue (by simpa using h), radix32_append, radix32_append, and_1C_toNat]
  omega

/-- Settles O30: ENC writes the symbols of the decoded value's groups. -/
theorem decEncCanonical : Obligations.DecEncCanonical := by
  intro rd s ds h26 h hpad
  obtain ⟨hlen, -⟩ := id h
  obtain ⟨init, d, rfl⟩ : ∃ init d, ds = init ++ [d] :=
    ds.eq_nil_or_concat'.resolve_left (by rintro rfl; simp at hlen)
  have hinit : init.length = 25 := by simpa using hlen
  have hchar (t : State) (k : Fin 32) (hk : k.val < 26) :
      some (t.finishText (encodeText (decodedValue 26 (accumulate (init ++ [d]))))).t[k] =
        (init ++ [d &&& 0x1C])[k.val]?.map encTable := by
    rw [t.finishText_encodeText_get _ hk, ← encDigits_decodedValue d hinit, encDigits_get? _ hk,
      Option.map_some]
  refine ⟨_, _, exec_dec_accepted rd (h26 ▸ h) (.inr h26) fun hstrict _ => hpad hstrict,
    exec_enc_written (s.wideWritten_finishWide_same rd _), fun k hk => ?_, ?_⟩ <;>
    rw [State.wide_finishWide_same, Wide.value_ofValue, h26]
  · rw [hchar _ k (by omega), List.getElem?_append_left (by omega),
      List.getElem?_append_left (by omega)]
  · exact (hchar _ 25 (by decide)).trans (by simp [hinit])

/-! ### The 25-character path (R150) -/

/-- SHL by 5, and OR of one digit after another (R150). -/
def shiftChain (ds : List (BitVec 5)) : Wide :=
  ds.foldl (fun acc d => wideOr (wideShl acc 5) (smallImmediate (d.setWidth 16))) ⟨0, 0⟩

/-- SHL by 5 and OR of a digit append the digit. -/
theorem shl5_ori_toNat (x : Wide) (d : BitVec 5) :
    (wideOr (wideShl x 5) (smallImmediate (d.setWidth 16))).value.toNat =
      x.value.toNat * 32 % 2 ^ 128 + d.toNat := by
  have hd := d.isLt
  rw [wideOr_value, wideShl_value, smallImmediate_value, ← BitVec.ofNat_toNat 16,
    shl5_or_toNat _ (by omega)]

/-- Up to 25 digits no bit is shifted out. -/
theorem shiftChain_toNat {ds : List (BitVec 5)} (h : ds.length ≤ 25) :
    (shiftChain ds).value.toNat = radix32 ds := by
  induction ds using List.reverseRecOn with
  | nil => rfl
  | append_singleton ds d ih =>
    rw [List.length_append, List.length_singleton] at h
    have hlt : radix32 ds < 32 ^ 24 :=
      (radix32_lt ds).trans_le (Nat.pow_le_pow_right (by decide) (by omega))
    rw [shiftChain, List.foldl_append, List.foldl_cons, List.foldl_nil, shl5_ori_toNat,
      ← shiftChain, ih (by omega), radix32_append, Nat.mod_eq_of_lt (by omega)]

/-- Settles O31: the chain and the 25-character path both give the number the digits write. -/
theorem shortDecodeIsShiftChain : Obligations.ShortDecodeIsShiftChain := by
  intro ds h
  obtain ⟨-, hvalue⟩ := decodedValue_toNat ds
  exact BitVec.eq_of_toNat_eq ((shiftChain_toNat h.le).trans (hvalue h).symm)

end Sys2Proof.Machine

/-! PROOFS. Statements of 42_compare_hash.md: the byte-wise comparison is that of the unsigned values, which
is a strict total order and the order of the encoded texts; the hash in closed form; and what CMP and HASH of
written sources leave (R170 to R177). -/

namespace Sys2Proof.Machine

/-! ### The byte-wise comparison (R170) -/

/-- The first bytes decide, and the rest where they are equal. -/
@[simp] theorem compareBytes_cons (a b : Byte) (as bs : List Byte) :
    compareBytes (a :: as) (b :: bs) = (compare a.toNat b.toNat).then (compareBytes as bs) := by
  simp only [compareBytes, BitVec.lt_def]
  split_ifs with hlt hgt
  · rw [Nat.compare_eq_lt.mpr hlt, Ordering.lt_then]
  · rw [Nat.compare_eq_gt.mpr hgt, Ordering.gt_then]
  · rw [Nat.compare_eq_eq.mpr (by omega), Ordering.eq_then]

/-- Of texts in two parts, the first parts of one length decide, and the second where they are equal. -/
theorem compareBytes_append {as bs : List Byte} (cs ds : List Byte) (h : as.length = bs.length) :
    compareBytes (as ++ cs) (bs ++ ds) = (compareBytes as bs).then (compareBytes cs ds) := by
  induction as generalizing bs with
  | nil =>
    obtain rfl := List.length_eq_zero_iff.mp h.symm
    rfl
  | cons a as ih =>
    cases bs with
    | nil => simp at h
    | cons b bs => simp [ih (by simpa using h), Ordering.then_assoc]

@[simp] theorem compareBytes_self (as : List Byte) : compareBytes as as = .eq := by
  induction as with
  | nil => rfl
  | cons a as ih => simp [ih]

/-- Exchanging the texts exchanges less and greater. -/
theorem compareBytes_swap (as bs : List Byte) : (compareBytes as bs).swap = compareBytes bs as := by
  induction as generalizing bs with
  | nil => cases bs <;> rfl
  | cons a as ih =>
    cases bs with
    | nil => rfl
    | cons b bs => rw [compareBytes_cons, compareBytes_cons, Ordering.swap_then, Nat.compare_swap, ih]

/-- Of two texts of one length, the one that comes first in lexicographic order is the smaller. -/
theorem compareBytes_of_lt {as bs : List Byte} (hlen : as.length = bs.length) (h : as < bs) :
    compareBytes as bs = .lt := by
  induction as generalizing bs with
  | nil =>
    obtain rfl := List.length_eq_zero_iff.mp hlen.symm
    exact absurd h (List.lt_irrefl _)
  | cons a as ih =>
    cases bs with
    | nil => simp at hlen
    | cons b bs =>
      rw [compareBytes_cons]
      rcases List.cons_lt_cons_iff.mp h with hlt | ⟨rfl, htail⟩
      · rw [Nat.compare_eq_lt.mpr hlt, Ordering.lt_then]
      · rw [Nat.compare_eq_eq.mpr rfl, Ordering.eq_then, ih (by simpa using hlen) htail]

/-- The first byte that differs decides. -/
theorem compareBytes_firstDifference {f g : Nat → Byte} {n j : Nat} (hj : j < n)
    (heq : ∀ i, i < j → f i = g i) (hne : f j ≠ g j) :
    compareBytes ((List.range n).map f) ((List.range n).map g) = compare (f j).toNat (g j).toNat := by
  obtain ⟨k, rfl⟩ : ∃ k, n = j + (k + 1) := ⟨n - j - 1, by omega⟩
  have hbefore : (List.range j).map f = (List.range j).map g :=
    List.map_congr_left fun i hi => heq i (List.mem_range.mp hi)
  rw [List.range_add, List.map_append, List.map_append, hbefore, compareBytes_append _ _ rfl,
    compareBytes_self, Ordering.eq_then, List.range_succ_eq_map]
  simp only [List.map_cons, Nat.add_zero, compareBytes_cons]
  cases hc : compare (f j).toNat (g j).toNat with
  | eq => exact absurd (BitVec.eq_of_toNat_eq (Nat.compare_eq_eq.mp hc)) hne
  | lt | gt => rfl

/-! ### Bytes and values -/

/-- Identifier byte j is a digit of the value in base 256 (00_scope.md R13). -/
theorem idByte_toNat (v : BitVec 128) {j : Nat} (h : j < 16) :
    (idByte v j).toNat = v.toNat / 256 ^ (15 - j) % 256 := by
  rw [idByte, field_toNat, show 120 - 8 * j = 8 * (15 - j) by omega, pow_mul]
  norm_num

/-- In base 256, the digits before the last decide, and the last where those are equal. -/
theorem compare_div_mod_256 (a b : Nat) :
    (compare (a / 256) (b / 256)).then (compare (a % 256) (b % 256)) = compare a b := by
  rcases lt_trichotomy (a / 256) (b / 256) with hlt | heq | hgt
  · rw [Nat.compare_eq_lt.mpr hlt, Ordering.lt_then, Nat.compare_eq_lt.mpr (by omega)]
  · rw [Nat.compare_eq_eq.mpr heq, Ordering.eq_then]
    rcases lt_trichotomy (a % 256) (b % 256) with hlt | heq | hgt
    · rw [Nat.compare_eq_lt.mpr hlt, Nat.compare_eq_lt.mpr (by omega)]
    · rw [Nat.compare_eq_eq.mpr heq, Nat.compare_eq_eq.mpr (by omega)]
    · rw [Nat.compare_eq_gt.mpr hgt, Nat.compare_eq_gt.mpr (by omega)]
  · rw [Nat.compare_eq_gt.mpr hgt, Ordering.gt_then, Nat.compare_eq_gt.mpr (by omega)]

/-- Comparing the first n bytes of two values is comparing the numbers those bytes write. -/
theorem compareBytes_first_idBytes (v1 v2 : BitVec 128) {n : Nat} (h : n ≤ 16) :
    compareBytes ((List.range n).map (idByte v1)) ((List.range n).map (idByte v2)) =
      compare (v1.toNat / 256 ^ (16 - n)) (v2.toNat / 256 ^ (16 - n)) := by
  induction n with
  | zero =>
    have h1 := v1.isLt
    have h2 := v2.isLt
    rw [Nat.compare_eq_eq.mpr (by omega)]
    rfl
  | succ n ih =>
    have hlast (v : BitVec 128) : v.toNat / 256 ^ (16 - n) = v.toNat / 256 ^ (15 - n) / 256 := by
      rw [Nat.div_div_eq_div_mul, ← pow_succ, show 15 - n + 1 = 16 - n by omega]
    rw [List.range_succ, List.map_append, List.map_append, compareBytes_append _ _ (by simp),
      ih (by omega), hlast, hlast, show 16 - (n + 1) = 15 - n by omega,
      ← compare_div_mod_256 (v1.toNat / 256 ^ (15 - n))]
    simp [idByte_toNat _ (show n < 16 by omega)]

/-- The comparison is that of the unsigned values (R170). -/
theorem compareWide_eq_compare (x y : Wide) :
    compareWide x y = compare x.value.toNat y.value.toNat := by
  rw [compareWide, idBytes, idBytes, compareBytes_first_idBytes _ _ le_rfl, Nat.sub_self, pow_zero,
    Nat.div_one, Nat.div_one]

/-- Settles O33: the first differing byte decides, as in every comparison of texts, and byte by byte the
values are compared digit by digit. -/
theorem compareIsUnsigned : Obligations.CompareIsUnsigned := by
  intro x y
  refine ⟨fun j hj heq => ⟨fun hlt => ?_, fun hgt => ?_⟩, fun heq => ?_, compareWide_eq_compare x y⟩
  · exact (compareBytes_firstDifference hj heq (BitVec.ne_of_lt hlt)).trans (Nat.compare_eq_lt.mpr hlt)
  · exact (compareBytes_firstDifference hj heq (BitVec.ne_of_lt hgt).symm).trans
      (Nat.compare_eq_gt.mpr hgt)
  · have hbytes : idBytes x.value = idBytes y.value :=
      List.map_congr_left fun i hi => heq i (List.mem_range.mp hi)
    rw [compareWide, hbytes, compareBytes_self]

/-- Settles O35: the order of the naturals is one, and a register is its value. -/
theorem compareStrictTotalOrder : Obligations.CompareStrictTotalOrder := by
  intro x y z
  simp only [compareWide_eq_compare, Nat.compare_eq_lt, Nat.compare_eq_eq, Nat.compare_swap, true_and]
  exact ⟨lt_trans, fun h => Wide.value_inj (BitVec.eq_of_toNat_eq h)⟩

/-- Settles O36: a smaller value has a smaller text (R136). -/
theorem compareIsTextOrder : Obligations.CompareIsTextOrder := by
  intro x y
  have hless {v1 v2 : BitVec 128} (h : v1 < v2) :
      compareBytes (encodeText v1) (encodeText v2) = .lt := compareBytes_of_lt (by simp) (encodeText_lt h)
  rw [compareWide_eq_compare]
  rcases lt_trichotomy x.value.toNat y.value.toNat with hlt | heq | hgt
  · rw [Nat.compare_eq_lt.mpr hlt, hless hlt]
  · rw [Nat.compare_eq_eq.mpr heq, BitVec.eq_of_toNat_eq heq, compareBytes_self]
  · rw [Nat.compare_eq_gt.mpr hgt, ← compareBytes_swap, hless hgt, Ordering.swap_lt]

/-! ### The hash (R175, R177) -/

/-- One step of the recurrence, as a number. -/
theorem hashStep_toNat (h : Word) (b : Byte) :
    (hashStep h b).toNat = (h.toNat * 31 + b.toNat) % 2 ^ 32 := by
  have hb := b.isLt
  have h31 : (31 : Word).toNat = 31 := rfl
  rw [hashStep, BitVec.toNat_add, BitVec.toNat_mul, BitVec.toNat_setWidth, h31]
  omega

/-- The recurrence over the first n bytes in closed form. -/
theorem foldl_hashStep_toNat (init : Word) (f : Nat → Byte) (n : Nat) :
    (((List.range n).map f).foldl hashStep init).toNat =
      (init.toNat * 31 ^ n + ∑ j ∈ Finset.range n, (f j).toNat * 31 ^ (n - 1 - j)) % 2 ^ 32 := by
  induction n with
  | zero => simp [Nat.mod_eq_of_lt init.isLt]
  | succ n ih =>
    have hpow {j : Nat} (hj : j ∈ Finset.range n) :
        (f j).toNat * 31 ^ (n + 1 - 1 - j) = (f j).toNat * 31 ^ (n - 1 - j) * 31 := by
      have hlt := Finset.mem_range.mp hj
      rw [mul_assoc, ← pow_succ, show n - 1 - j + 1 = n + 1 - 1 - j by omega]
    have hsum : ∑ j ∈ Finset.range (n + 1), (f j).toNat * 31 ^ (n + 1 - 1 - j) =
        (∑ j ∈ Finset.range n, (f j).toNat * 31 ^ (n - 1 - j)) * 31 + (f n).toNat := by
      rw [Finset.sum_range_succ, Finset.sum_congr rfl fun _ => hpow, ← Finset.sum_mul,
        Nat.add_sub_cancel, Nat.sub_self, pow_zero, mul_one]
    rw [List.range_succ, List.map_append, List.foldl_append, List.map_singleton, List.foldl_cons,
      List.foldl_nil, hashStep_toNat, ih, hsum, pow_succ 31 n, ← mul_assoc]
    omega

/-- Settles O37: the closed form after all 16 bytes. -/
theorem hashClosedForm : Obligations.HashClosedForm :=
  fun init v => foldl_hashStep_toNat init (idByte v) 16

/-! ### CMP and HASH of written sources (R171, R176) -/

/-- A command that writes R, all of whose operands are written, completes with its value in R. -/
theorem endCommand_result_completes {written : Bool} (v : Word) (s : State) (h : written = true) :
    ∃ t, endCommand written (s.finishResult v) s.loseResult = .next t ∧ t.r = v ∧
      t.rWritten = true ∧ ResultFrame s t ∧ Completed s t :=
  ⟨s.finishResult v, h ▸ rfl, rfl, rfl, s.finishResult_frame v, ⟨rfl, rfl⟩, rfl, rfl⟩

/-- Settles O34: the code in R is that of the unsigned comparison. -/
theorem cmpResult : Obligations.CmpResult := by
  intro a b s
  refine ⟨commandWord_fieldSum .cmp 0 a b 0, fun ha hb => ?_⟩
  have hwritten : s.widesWritten a b = true := by rw [State.widesWritten, ha, hb, Bool.and_self]
  obtain ⟨t, ht, hr, hdone⟩ := endCommand_result_completes
    (comparisonCode (compareWide (s.wide a) (s.wide b))) s hwritten
  rw [compareWide_eq_compare] at hr
  refine ⟨t, ht, fun hlt => ?_, fun heq => ?_, fun hgt => ?_, hdone⟩
  · rw [hr, Nat.compare_eq_lt.mpr hlt, comparisonCode]
  · rw [hr, heq, Nat.compare_eq_eq.mpr rfl, comparisonCode]
  · rw [hr, Nat.compare_eq_gt.mpr hgt, comparisonCode]

/-- Settles O38: R takes the recurrence over the identifier bytes. -/
theorem hashResult : Obligations.HashResult := by
  intro a s
  refine ⟨commandWord_fieldSum .hash 0 a 0 0, fun ha => ?_⟩
  obtain ⟨t, ht, hr, hdone⟩ :=
    endCommand_result_completes (hashFrom Config.hashInit (s.wide a).value) s ha
  exact ⟨t, ht, hr.trans List.foldl_map, hdone⟩

end Sys2Proof.Machine

/-! PROOFS. Statements of 60_exceptions.md: an error writes STATUS only, and every step leaves STATUS one of
the listed outcomes (60_exceptions.md R200 to R206). -/

namespace Sys2Proof.Machine

/-! ### Errors are precise (R204, R206) -/

/-- Settles O53: of the ends of a command only an error leaves a status that is not success without counting
a use of unwritten state, and an error writes STATUS only. -/
theorem errorsArePrecise : Obligations.ErrorsArePrecise := by
  intro i s t h hf herr
  cases exec_end h with
  | error hd e d k => exact s.raise_statusOnly e d k
  | wide | text | result => exact absurd rfl herr
  | wideLost | textLost | resultLost => exact absurd hf (Nat.succ_ne_self _)

/-! ### The outcomes the unit produces are the listed ones (R203) -/

/-- Success is a listed outcome. -/
theorem Status.ok_legal : Status.ok.Legal := .inl rfl

/-- A decoding rejects no character beyond the 26 it may read (41_base32_codec.md R145, R146). -/
theorem State.le_of_decoded_badChar {s : State} {k : Nat} (h : s.decoded = .badChar k) : k ≤ 25 := by
  obtain ⟨hlen, hk, -⟩ := (State.decoded_badChar_iff ⟨k, State.lt_of_decoded_badChar h⟩).mp h
  dsimp only at hk
  omega

/-- Whatever the decoding of a text comes to is a listed outcome. -/
theorem State.decoded_status_legal (s : State) : s.decoded.status.Legal := by
  cases hd : s.decoded with
  | value v => exact Status.ok_legal
  | badLength => exact .inr (.inl rfl)
  | badChar k =>
    have hk := State.le_of_decoded_badChar hd
    have hindex : (BitVec.ofNat 5 k).toNat ≤ 25 := by
      rw [BitVec.toNat_ofNat]
      omega
    exact .inr (.inr (.inl ⟨rfl, rfl, hindex⟩))
  | badPad => exact .inr (.inr (.inr (.inl rfl)))

/-- A word that decodes to no command leaves a listed outcome (30_encoding.md R77). -/
theorem State.rejectCommand_legal (s : State) (e : DecodeError) : (s.rejectCommand e).status.Legal := by
  cases e with
  | reservedOpcode => exact .inr (.inr (.inr (.inr (.inl rfl))))
  | nonzeroField => exact .inr (.inr (.inr (.inr (.inr rfl))))

/-! ### What each part of a step leaves in STATUS -/

/-- A command leaves the old STATUS (where it used unwritten state), success, or what the decoding of the
text came to: only DEC raises errors (R201). -/
theorem exec_status {i : Instr} {s t : State} (h : exec i s = .next t) :
    t.status = s.status ∨ t.status = Status.ok ∨ t.status = s.decoded.status := by
  cases i with
  | dec rd =>
    obtain ⟨-, rfl⟩ | ⟨-, rfl⟩ := endCommand_cases h
    · exact .inr (.inr (s.finishDecode_status rd s.decoded))
    · exact .inl rfl
  | _ =>
    obtain ⟨-, rfl⟩ | ⟨-, rfl⟩ := endCommand_cases h
    · exact .inr (.inl rfl)
    · exact .inl rfl

/-- The host cannot write STATUS (20_memory.md R58). -/
@[simp] theorem State.windowWrite_status (s : State) (reg : WindowReg) (v : Word) :
    (s.windowWrite reg v).status = s.status := by
  cases reg <;> rfl

/-- A turn of the host leaves STATUS as it was, unless it is a reset. -/
theorem hostTurn_status {s t : State} (h : hostTurn s = .next t) :
    t.status = s.status ∨ t.status = Status.ok := by
  rcases hostTurn_cases h with ⟨-, rfl⟩ | ⟨rest, -, rfl⟩ | ⟨rest, -, rfl⟩ | ⟨rest, -, rfl⟩ |
    ⟨addr, nbytes, rest, off, -, -, -, rfl⟩ | ⟨addr, nbytes, v, rest, off, -, -, -, rfl⟩
  · exact .inl rfl
  · exact .inl rfl
  · exact .inr rfl
  · rw [State.poll_eq]
    exact .inl rfl
  · exact .inl rfl
  · exact .inl (State.windowWrite_status _ _ v)

/-- Settles O51: a step keeps STATUS or leaves in it success, the outcome of a decoding or the error of a
rejected word, and each of these is listed. -/
theorem stepKeepsStatusLegal : Obligations.StepKeepsStatusLegal := by
  intro s t hs h
  rcases step_turns h with ⟨p, i, -, -, -, he⟩ | ⟨e, rfl⟩ | ⟨pd, hh⟩
  · obtain hsame | hok | hdec := exec_status he
    · exact hsame ▸ hs
    · exact hok ▸ Status.ok_legal
    · exact hdec ▸ s.decoded_status_legal
  · exact s.rejectCommand_legal e
  · obtain hsame | hok := hostTurn_status hh
    · exact hsame ▸ hs
    · exact hok ▸ Status.ok_legal

end Sys2Proof.Machine

/-! PROOFS. Statements of 70_reset_and_hazards.md: the step that runs a command, what a waiting host sees,
accesses while BUSY = 1, what a reset leaves, and the end of a run (70_reset_and_hazards.md R230 to R247). -/

namespace Sys2Proof.Machine

/-! ### The run of a pending command (R240, R242, R243) -/

/-- Settles O6: with its latency over the word is run, and running it is the meaning of what it decodes to. -/
theorem stepRunsDecoded : Obligations.StepRunsDecoded := by
  rintro s ⟨c, n⟩ i hp rfl hd
  rw [step_runCommand hp, runCommand, hd]

/-- Settles O8: the host polls through the latency, the command completes and keeps the host waiting, and
the next poll finds nothing pending. -/
theorem waitSeesCompletion : Obligations.WaitSeesCompletion := by
  intro s p rest hp hh
  obtain ⟨t, hstep, hnone, hkeeps⟩ := step_completes (s := { s with
    pending := some ⟨p.command, 0⟩
    reads := List.replicate p.latLeft (s.status.word true) ++ s.reads }) rfl
  obtain ⟨-, hhost, -⟩ := hkeeps
  have hwait : t.host = .wait :: rest := hhost.trans hh
  refine ⟨t, hstep, hnone, ?_, ?_⟩
  · rw [run_wait_latency 1 hp hh, run_succ 0 hstep, run_zero]
  · rw [run_wait_latency 2 hp hh, run_succ 1 hstep, run_succ 0 (step_wait_idle hnone hwait), run_zero]

/-! ### The end of a run (R247) -/

/-- With no host action left and nothing pending, a step changes nothing (log 14). -/
theorem step_quiet {s : State} (h : s.Quiet) : step s = .next s := by
  obtain ⟨hhost, hpending⟩ := h
  rw [step_idle hpending, hostTurn, hhost]

/-- A run that answers a next state has answered one at its first step, on any machine. -/
theorem run_succ_inv {M : Host.Core} {n : Nat} {s t : M.State} (h : M.run (n + 1) s = .next t) :
    ∃ u, M.step s = .next u ∧ M.run n u = .next t := by
  rw [Host.Core.run] at h
  split at h
  · rename_i u hstep
    exact ⟨u, hstep, h⟩
  · cases h
  · cases h

/-- What every step keeps, every run keeps. -/
theorem run_keeps {M : Host.Core} {P : M.State → Prop} (hstep : ∀ s t, M.step s = .next t → P s → P t)
    (n : Nat) {s t : M.State} (h : M.run n s = .next t) (hs : P s) : P t := by
  induction n generalizing s with
  | zero => cases h; exact hs
  | succ n ih =>
    obtain ⟨u, hu, hrun⟩ := run_succ_inv h
    exact ih hrun (hstep s u hu hs)

/-- Settles O10: the record of UnwrittenRead is kept along a run, and a final state holds none. -/
theorem endedRunStays : Obligations.EndedRunStays := by
  refine ⟨fun _ => step_quiet, fun n s t hs hrun hended => ?_⟩
  have hrecord : t.unwrittenRead = true :=
    run_keeps (M := core) (P := fun u : State => u.unwrittenRead = true)
      (fun u v h => (marksOnlyGrow u v h).1) n hrun hs
  obtain ⟨-, hclean⟩ := hended
  exact Bool.noConfusion (hrecord.symm.trans hclean)

/-! ### Accesses while BUSY = 1 (R241, R242) -/

/-- While the unit is busy a well-formed access reaches its word if that is allowed, and else is
HostHazard. -/
theorem State.access_busy {s : State} {off : Nat} (allowed : WindowReg → Bool) (hb : s.busy = true)
    (h : off < 256) (h4 : off % 4 = 0) :
    s.access (Config.base + off) 4 allowed =
      if allowed (windowReg off) then .ok (windowReg off) else .error .hostHazard := by
  rw [State.access, accessOffset_base h h4]
  cases ha : allowed (windowReg off) <;> simp [hb, ha]

section Busy

variable {s : State} {c : Word} {n off : Nat} {v : Word} {rest : List HostOp}

/-- A write while latency is left is HostHazard. -/
theorem step_writeOp_busy (hp : s.pending = some ⟨c, n + 1⟩) (hh : s.host = writeOp off v :: rest)
    (h : off < 256) (h4 : off % 4 = 0) : step s = .fault .hostHazard := by
  rw [step_latency hp, hostTurn, hh]
  simp only [writeOp, hostWriteTurn]
  rw [State.access_busy _ rfl h h4]
  rfl

/-- A read while latency is left reads STATUS, or is HostHazard. -/
theorem step_readOp_busy (hp : s.pending = some ⟨c, n + 1⟩) (hh : s.host = readOp off :: rest)
    (h : off < 256) (h4 : off % 4 = 0) :
    step s = if windowReg off = .status then
        .next ({ s with pending := some ⟨c, n⟩, host := rest }.hostRead .status)
      else .fault .hostHazard := by
  rw [step_latency hp, hostTurn, hh]
  simp only [readOp, hostReadTurn]
  rw [State.access_busy _ rfl h h4]
  by_cases hreg : windowReg off = .status <;> simp [hreg]

end Busy

/-- A read of STATUS gives the host its word, and changes nothing else. -/
theorem State.hostRead_status (s : State) :
    s.hostRead .status = { s with reads := s.statusWord :: s.reads } := by
  simp [State.hostRead, State.deliver, State.noteUse, State.windowRead, State.windowWritten]

/-- Settles O46: no write is allowed while BUSY = 1, and of the reads only the one at STATUS's offset. -/
theorem busyAccessIsHazard : Obligations.BusyAccessIsHazard := by
  intro s c n off v rest hp h h4
  refine ⟨fun hh => step_writeOp_busy hp hh h h4, fun hh hoff => ?_⟩
  obtain ⟨-, -, hstatus, -⟩ := windowReg_inv h h4
  rw [step_readOp_busy hp hh h h4, if_neg (mt hstatus.mp hoff)]

/-- Settles O47: while a command is pending STATUS still holds the old outcome, and after a command
nothing is pending. -/
theorem busyStatusRead : Obligations.BusyStatusRead := by
  constructor
  · intro s c n rest hp hh
    refine ⟨s.status.word true, s.status.word_toNat true, ?_⟩
    have hreg : windowReg 0x04C = .status := rfl
    rw [step_readOp_busy hp hh (by decide) (by decide), if_pos hreg, State.hostRead_status]
    rfl
  · intro i s t h
    obtain ⟨u, hu, hnone, -⟩ := exec_common i s
    obtain rfl : t = u := Host.Outcome.next.inj (h.symm.trans hu)
    rw [statusWordLayout t, if_pos hnone, Nat.zero_add]

/-! ### Reset (R230, R232) -/

/-- No word of a wide register is marked written after reset. -/
theorem State.reset_wideMark (i k : Fin 4) : State.reset.wWritten[i][k] = false := by
  simp [State.reset]

/-- No byte of T is marked written after reset. -/
theorem State.reset_textMark (k : Fin 32) : State.reset.tWritten[k] = false := by
  simp [State.reset]

/-- STATUS reads 0 after reset. -/
theorem State.resetUnit_statusWord (s : State) : s.resetUnit.statusWord = 0 := by
  rw [State.statusWord, State.busy, State.resetUnit_status, State.resetUnit_pending]
  rfl

/-- Settles O49: the reset state's fields are these, and its marks are clear. -/
theorem resetValues : Obligations.ResetValues :=
  ⟨rfl, rfl, rfl, rfl, rfl, State.reset_wideMark, State.reset_textMark⟩

/-- Settles O52: reset leaves no error in STATUS. -/
theorem resetStatusLegal : Obligations.ResetStatusLegal := Status.ok_legal

/-- A reset of an idle unit, or with latency left, answers the unit's reset state. -/
theorem step_reset {s : State} {rest : List HostOp}
    (hp : s.pending = none ∨ ∃ c n, s.pending = some ⟨c, n + 1⟩) (hh : s.host = .reset :: rest) :
    ∃ pd, step s = .next { s with pending := pd, host := rest }.resetUnit := by
  obtain hidle | ⟨c, n, hbusy⟩ := hp
  · exact ⟨s.pending, by rw [step_idle hidle, hostTurn, hh]⟩
  · exact ⟨some ⟨c, n⟩, by rw [step_latency hbusy, hostTurn, hh]⟩

/-- Settles O50: whatever was pending, the unit's fields are those of the reset state, and the host's are
its own. -/
theorem resetDiscardsPending : Obligations.ResetDiscardsPending := by
  intro s rest hp hh
  obtain ⟨pd, hstep⟩ := step_reset hp hh
  exact ⟨_, hstep, rfl, rfl, rfl, State.resetUnit_statusWord _, rfl, State.reset_wideMark,
    State.reset_textMark, rfl, rfl, rfl⟩

end Sys2Proof.Machine
